-- ==== Sys2Proof/Word.lean ====
section
/-! DEFINITION. The word types of the CHIP-8 core (spec 00_scope.md R4, R6): all values are unsigned. -/

namespace Sys2Proof

/-- A byte: the contents of a general register, a timer or a memory location (R4). -/
abbrev Byte := BitVec 8

/-- A 12-bit address: the contents of `I`, `PC` and of a stack entry (R4). -/
abbrev Addr := BitVec 12

/-- The 16-bit instruction word of a step (R6). -/
abbrev Word := BitVec 16

/-- The index of a general register, 0 to 15 (R11). -/
abbrev Reg := Fin 16

/-- The index of a key, 0 to 15 (R20). -/
abbrev KeyIndex := Fin 16

end Sys2Proof
end

