-- ==== Sys2Proof/Syntax.lean ====
section
/-! DEFINITION. The instructions: one constructor per row of spec/opcode_table.json (spec 30_encoding.md R57), in the
table's order, with the operand fields the row names (R51, R52). Ignored bits that are no field of the row (R56) are no
operands here; the unused `y` of SHR and SHL is a field of its row, and an operand (log 33). -/

namespace Sys2Proof

/-- An instruction of the opcode map R57. `x`, `y` are register indices, `nn` an 8-bit immediate, `nnn` a 12-bit
address, `n` a 4-bit count of sprite rows (R53). -/
inductive Instr where
  /-- Row 1, `0-E0`, CLS (R110). -/
  | cls
  /-- Row 2, `0-EE`, RET (R77). -/
  | ret
  /-- Row 3, `1nnn`, JP nnn (R78). -/
  | jp (nnn : Addr)
  /-- Row 4, `2nnn`, CALL nnn (R79). -/
  | call (nnn : Addr)
  /-- Row 5, `3xnn`, SE Vx, nn (R80). -/
  | seImm (x : Reg) (nn : Byte)
  /-- Row 6, `4xnn`, SNE Vx, nn (R81). -/
  | sneImm (x : Reg) (nn : Byte)
  /-- Row 7, `5xy-`, SE Vx, Vy (R82). -/
  | seReg (x y : Reg)
  /-- Row 8, `6xnn`, LD Vx, nn (R90). -/
  | ldImm (x : Reg) (nn : Byte)
  /-- Row 9, `7xnn`, ADD Vx, nn (R91). -/
  | addImm (x : Reg) (nn : Byte)
  /-- Row 10, `8xy0`, LD Vx, Vy (R92). -/
  | ldReg (x y : Reg)
  /-- Row 11, `8xy1`, OR Vx, Vy (R93). -/
  | orReg (x y : Reg)
  /-- Row 12, `8xy2`, AND Vx, Vy (R94). -/
  | andReg (x y : Reg)
  /-- Row 13, `8xy3`, XOR Vx, Vy (R95). -/
  | xorReg (x y : Reg)
  /-- Row 14, `8xy4`, ADD Vx, Vy (R96). -/
  | addReg (x y : Reg)
  /-- Row 15, `8xy5`, SUB Vx, Vy (R97). -/
  | subReg (x y : Reg)
  /-- Row 16, `8xy6`, SHR Vx (R98); `y` is decoded and not used. -/
  | shr (x y : Reg)
  /-- Row 17, `8xy7`, SUBN Vx, Vy (R99). -/
  | subn (x y : Reg)
  /-- Row 18, `8xyE`, SHL Vx (R100); `y` is decoded and not used. -/
  | shl (x y : Reg)
  /-- Row 19, `9xy-`, SNE Vx, Vy (R83). -/
  | sneReg (x y : Reg)
  /-- Row 20, `Annn`, LD I, nnn (R130). -/
  | ldI (nnn : Addr)
  /-- Row 21, `Bnnn`, JP V0, nnn (R84). -/
  | jpV0 (nnn : Addr)
  /-- Row 22, `Cxnn`, RND Vx, nn (R101). -/
  | rnd (x : Reg) (nn : Byte)
  /-- Row 23, `Dxyn`, DRW Vx, Vy, n (R111). -/
  | drw (x y : Reg) (n : BitVec 4)
  /-- Row 24, `Ex9E`, SKP Vx (R120). -/
  | skp (x : Reg)
  /-- Row 25, `ExA1`, SKNP Vx (R121). -/
  | sknp (x : Reg)
  /-- Row 26, `Fx07`, LD Vx, DT (R123). -/
  | ldVxDt (x : Reg)
  /-- Row 27, `Fx0A`, LD Vx, K (R122). -/
  | ldVxK (x : Reg)
  /-- Row 28, `Fx15`, LD DT, Vx (R124). -/
  | ldDtVx (x : Reg)
  /-- Row 29, `Fx18`, LD ST, Vx (R125). -/
  | ldStVx (x : Reg)
  /-- Row 30, `Fx1E`, ADD I, Vx (R131). -/
  | addI (x : Reg)
  /-- Row 31, `Fx29`, LD F, Vx (R132). -/
  | ldF (x : Reg)
  /-- Row 32, `Fx33`, LD B, Vx (R133). -/
  | ldB (x : Reg)
  /-- Row 33, `Fx55`, LD [I], Vx (R134). -/
  | ldMemVx (x : Reg)
  /-- Row 34, `Fx65`, LD Vx, [I] (R135). -/
  | ldVxMem (x : Reg)
  /-- Row 35, `0nnn`, SYS nnn: not executed, its behaviour is UNKNOWN (R59, R85); the lowest priority of the map. -/
  | sys (nnn : Addr)
deriving DecidableEq, Repr

end Sys2Proof
end

