-- ==== Sys2Proof/WellFormed.lean ====
section
/-! DEFINITION. Which instructions are well-formed. The operand types already bound every operand to its field (R51); the
one relation left is the priority of the opcode map: row 35 is selected only when rows 1 and 2 do not match (R57). -/

namespace Sys2Proof

/-- Row 35 matches `0x0nnn` only where rows 1 and 2 do not: the low byte of `nnn` is neither E0 nor EE (R57, R58). -/
def sysOperandOk (nnn : Addr) : Bool :=
  nnn.setWidth 8 != 0xE0#8 && nnn.setWidth 8 != 0xEE#8

/-- An instruction that some word selects (R63). -/
def WellFormed : Instr → Bool
  | .sys nnn => sysOperandOk nnn
  | .cls | .ret | .jp _ | .call _ | .seImm _ _ | .sneImm _ _ | .seReg _ _ | .ldImm _ _ | .addImm _ _ | .ldReg _ _
  | .orReg _ _ | .andReg _ _ | .xorReg _ _ | .addReg _ _ | .subReg _ _ | .shr _ _ | .subn _ _ | .shl _ _ | .sneReg _ _
  | .ldI _ | .jpV0 _ | .rnd _ _ | .drw _ _ _ | .skp _ | .sknp _ | .ldVxDt _ | .ldVxK _ | .ldDtVx _ | .ldStVx _
  | .addI _ | .ldF _ | .ldB _ | .ldMemVx _ | .ldVxMem _ => true

end Sys2Proof
end

