-- ==== Sys2Proof/Decode.lean ====
section
/-! DEFINITION. Decoding and encoding (spec 30_encoding.md R50 to R63). `decode` is the procedure R63; `encode` is the
pattern column of R57 with every ignored bit that is no field of the row zero (R56, R61). The `y` of SHR and SHL is a field
of its row, and `encode` keeps it although no operation uses it: DESIGN CHOICE (log 33). -/

namespace Sys2Proof

/-- Why the decoder rejects. -/
inductive DecodeError where
  /-- The word matches no row of R57 (families 8, E and F; R58). The step gives it the behaviour of R85. -/
  | unknownOpcode (word : Word)
  /-- Fewer bytes than one instruction (R50). Raised on a byte list only, never by a step, whose fetch always reads two
  bytes (log 32). -/
  | truncated
deriving DecidableEq, Repr

/-! ### The fields of a word (R51) -/

/-- The primary nibble, bits 15:12. -/
def Word.op (w : Word) : BitVec 4 := w.extractLsb' 12 4
/-- Bits 11:8. -/
def Word.x (w : Word) : Reg := (w.extractLsb' 8 4).toFin
/-- Bits 7:4. -/
def Word.y (w : Word) : Reg := (w.extractLsb' 4 4).toFin
/-- Bits 3:0. -/
def Word.n (w : Word) : BitVec 4 := w.extractLsb' 0 4
/-- Bits 7:0. -/
def Word.nn (w : Word) : Byte := w.extractLsb' 0 8
/-- Bits 11:0. -/
def Word.nnn (w : Word) : Addr := w.extractLsb' 0 12

/-! ### The families with a secondary key (R55, R63) -/

/-- Family 0, on `word & 0xF0FF`: CLS, RET, and otherwise the SYS slot, row 35 of R57 (log 4). -/
def decode0 (w : Word) : Except DecodeError Instr :=
  let key := w &&& 0xF0FF#16
  if key = 0x00E0#16 then .ok .cls
  else if key = 0x00EE#16 then .ok .ret
  else .ok (.sys (Word.nnn w))

/-- Family 8, on `word & 0xF00F`. -/
def decode8 (w : Word) : Except DecodeError Instr :=
  let key := w &&& 0xF00F#16
  let x := Word.x w
  let y := Word.y w
  if key = 0x8000#16 then .ok (.ldReg x y)
  else if key = 0x8001#16 then .ok (.orReg x y)
  else if key = 0x8002#16 then .ok (.andReg x y)
  else if key = 0x8003#16 then .ok (.xorReg x y)
  else if key = 0x8004#16 then .ok (.addReg x y)
  else if key = 0x8005#16 then .ok (.subReg x y)
  else if key = 0x8006#16 then .ok (.shr x y)
  else if key = 0x8007#16 then .ok (.subn x y)
  else if key = 0x800E#16 then .ok (.shl x y)
  else .error (.unknownOpcode w)

/-- Family E, on `word & 0xF0FF`. -/
def decodeE (w : Word) : Except DecodeError Instr :=
  let key := w &&& 0xF0FF#16
  let x := Word.x w
  if key = 0xE09E#16 then .ok (.skp x)
  else if key = 0xE0A1#16 then .ok (.sknp x)
  else .error (.unknownOpcode w)

/-- Family F, on `word & 0xF0FF`. -/
def decodeF (w : Word) : Except DecodeError Instr :=
  let key := w &&& 0xF0FF#16
  let x := Word.x w
  if key = 0xF007#16 then .ok (.ldVxDt x)
  else if key = 0xF00A#16 then .ok (.ldVxK x)
  else if key = 0xF015#16 then .ok (.ldDtVx x)
  else if key = 0xF018#16 then .ok (.ldStVx x)
  else if key = 0xF01E#16 then .ok (.addI x)
  else if key = 0xF029#16 then .ok (.ldF x)
  else if key = 0xF033#16 then .ok (.ldB x)
  else if key = 0xF055#16 then .ok (.ldMemVx x)
  else if key = 0xF065#16 then .ok (.ldVxMem x)
  else .error (.unknownOpcode w)

/-- Decode a word: first-level dispatch on the primary nibble (R54), then the family's secondary key (R55), as the
procedure of R63 says. Total: every word gives an instruction or `unknownOpcode`. -/
def decode (w : Word) : Except DecodeError Instr :=
  match Word.op w with
  | 0x0#4 => decode0 w
  | 0x1#4 => .ok (.jp (Word.nnn w))
  | 0x2#4 => .ok (.call (Word.nnn w))
  | 0x3#4 => .ok (.seImm (Word.x w) (Word.nn w))
  | 0x4#4 => .ok (.sneImm (Word.x w) (Word.nn w))
  | 0x5#4 => .ok (.seReg (Word.x w) (Word.y w))
  | 0x6#4 => .ok (.ldImm (Word.x w) (Word.nn w))
  | 0x7#4 => .ok (.addImm (Word.x w) (Word.nn w))
  | 0x8#4 => decode8 w
  | 0x9#4 => .ok (.sneReg (Word.x w) (Word.y w))
  | 0xA#4 => .ok (.ldI (Word.nnn w))
  | 0xB#4 => .ok (.jpV0 (Word.nnn w))
  | 0xC#4 => .ok (.rnd (Word.x w) (Word.nn w))
  | 0xD#4 => .ok (.drw (Word.x w) (Word.y w) (Word.n w))
  | 0xE#4 => decodeE w
  | _ => decodeF w  -- 0xF, the one nibble left

/-! ### Bytes: an instruction is two bytes, high byte first (R33, R50) -/

/-- The word of two consecutive bytes, big-endian (R33). -/
def wordOfBytes (high low : Byte) : Word := high ++ low

/-- The byte at the lower address (R33). -/
def Word.high (w : Word) : Byte := w.extractLsb' 8 8
/-- The byte at the higher address (R33). -/
def Word.low (w : Word) : Byte := w.extractLsb' 0 8

/-- Decode the first instruction of a byte list; answer the rest of the list with it. -/
def decodeBytes : List Byte → Except DecodeError (Instr × List Byte)
  | high :: low :: rest =>
    match decode (wordOfBytes high low) with
    | .ok i => .ok (i, rest)
    | .error e => .error e
  | _ => .error .truncated

/-! ### Encoding (the pattern column of R57; ignored bits that are no field zero, R56, log 33) -/

/-- Format NNN (R52): `o nnn`. -/
def wordNNN (o : BitVec 4) (nnn : Addr) : Word := o ++ nnn
/-- Format XNN (R52): `o x nn`; also format X, whose low byte is fixed. -/
def wordXNN (o : BitVec 4) (x : Reg) (nn : Byte) : Word := o ++ BitVec.ofFin (w := 4) x ++ nn
/-- Formats XY and XYN (R52): `o x y n`. -/
def wordXYN (o : BitVec 4) (x y : Reg) (n : BitVec 4) : Word :=
  o ++ BitVec.ofFin (w := 4) x ++ BitVec.ofFin (w := 4) y ++ n

/-- The canonical word of an instruction. -/
def encode : Instr → Word
  | .cls => 0x00E0#16
  | .ret => 0x00EE#16
  | .jp nnn => wordNNN 0x1#4 nnn
  | .call nnn => wordNNN 0x2#4 nnn
  | .seImm x nn => wordXNN 0x3#4 x nn
  | .sneImm x nn => wordXNN 0x4#4 x nn
  | .seReg x y => wordXYN 0x5#4 x y 0x0#4
  | .ldImm x nn => wordXNN 0x6#4 x nn
  | .addImm x nn => wordXNN 0x7#4 x nn
  | .ldReg x y => wordXYN 0x8#4 x y 0x0#4
  | .orReg x y => wordXYN 0x8#4 x y 0x1#4
  | .andReg x y => wordXYN 0x8#4 x y 0x2#4
  | .xorReg x y => wordXYN 0x8#4 x y 0x3#4
  | .addReg x y => wordXYN 0x8#4 x y 0x4#4
  | .subReg x y => wordXYN 0x8#4 x y 0x5#4
  | .shr x y => wordXYN 0x8#4 x y 0x6#4
  | .subn x y => wordXYN 0x8#4 x y 0x7#4
  | .shl x y => wordXYN 0x8#4 x y 0xE#4
  | .sneReg x y => wordXYN 0x9#4 x y 0x0#4
  | .ldI nnn => wordNNN 0xA#4 nnn
  | .jpV0 nnn => wordNNN 0xB#4 nnn
  | .rnd x nn => wordXNN 0xC#4 x nn
  | .drw x y n => wordXYN 0xD#4 x y n
  | .skp x => wordXNN 0xE#4 x 0x9E#8
  | .sknp x => wordXNN 0xE#4 x 0xA1#8
  | .ldVxDt x => wordXNN 0xF#4 x 0x07#8
  | .ldVxK x => wordXNN 0xF#4 x 0x0A#8
  | .ldDtVx x => wordXNN 0xF#4 x 0x15#8
  | .ldStVx x => wordXNN 0xF#4 x 0x18#8
  | .addI x => wordXNN 0xF#4 x 0x1E#8
  | .ldF x => wordXNN 0xF#4 x 0x29#8
  | .ldB x => wordXNN 0xF#4 x 0x33#8
  | .ldMemVx x => wordXNN 0xF#4 x 0x55#8
  | .ldVxMem x => wordXNN 0xF#4 x 0x65#8
  | .sys nnn => wordNNN 0x0#4 nnn

/-- The two bytes of an instruction, as a program image holds them (R47). -/
def encodeBytes (i : Instr) : List Byte := [Word.high (encode i), Word.low (encode i)]

/-! ### The opcode map as data (R57), to hold the decoder against -/

/-- One row of R57: a word `w` fits the row when `w & mask = value`. -/
structure OpcodeRow where
  mask : Word
  value : Word
deriving DecidableEq, Repr

/-- The row of R57 an instruction belongs to. -/
def rowOf : Instr → OpcodeRow
  | .cls => ⟨0xF0FF#16, 0x00E0#16⟩
  | .ret => ⟨0xF0FF#16, 0x00EE#16⟩
  | .jp _ => ⟨0xF000#16, 0x1000#16⟩
  | .call _ => ⟨0xF000#16, 0x2000#16⟩
  | .seImm _ _ => ⟨0xF000#16, 0x3000#16⟩
  | .sneImm _ _ => ⟨0xF000#16, 0x4000#16⟩
  | .seReg _ _ => ⟨0xF000#16, 0x5000#16⟩
  | .ldImm _ _ => ⟨0xF000#16, 0x6000#16⟩
  | .addImm _ _ => ⟨0xF000#16, 0x7000#16⟩
  | .ldReg _ _ => ⟨0xF00F#16, 0x8000#16⟩
  | .orReg _ _ => ⟨0xF00F#16, 0x8001#16⟩
  | .andReg _ _ => ⟨0xF00F#16, 0x8002#16⟩
  | .xorReg _ _ => ⟨0xF00F#16, 0x8003#16⟩
  | .addReg _ _ => ⟨0xF00F#16, 0x8004#16⟩
  | .subReg _ _ => ⟨0xF00F#16, 0x8005#16⟩
  | .shr _ _ => ⟨0xF00F#16, 0x8006#16⟩
  | .subn _ _ => ⟨0xF00F#16, 0x8007#16⟩
  | .shl _ _ => ⟨0xF00F#16, 0x800E#16⟩
  | .sneReg _ _ => ⟨0xF000#16, 0x9000#16⟩
  | .ldI _ => ⟨0xF000#16, 0xA000#16⟩
  | .jpV0 _ => ⟨0xF000#16, 0xB000#16⟩
  | .rnd _ _ => ⟨0xF000#16, 0xC000#16⟩
  | .drw _ _ _ => ⟨0xF000#16, 0xD000#16⟩
  | .skp _ => ⟨0xF0FF#16, 0xE09E#16⟩
  | .sknp _ => ⟨0xF0FF#16, 0xE0A1#16⟩
  | .ldVxDt _ => ⟨0xF0FF#16, 0xF007#16⟩
  | .ldVxK _ => ⟨0xF0FF#16, 0xF00A#16⟩
  | .ldDtVx _ => ⟨0xF0FF#16, 0xF015#16⟩
  | .ldStVx _ => ⟨0xF0FF#16, 0xF018#16⟩
  | .addI _ => ⟨0xF0FF#16, 0xF01E#16⟩
  | .ldF _ => ⟨0xF0FF#16, 0xF029#16⟩
  | .ldB _ => ⟨0xF0FF#16, 0xF033#16⟩
  | .ldMemVx _ => ⟨0xF0FF#16, 0xF055#16⟩
  | .ldVxMem _ => ⟨0xF0FF#16, 0xF065#16⟩
  | .sys _ => ⟨0xF000#16, 0x0000#16⟩

/-- The bits of a word that decoding reads: all but the ignored bits of CLS, RET, SE Vx, Vy and SNE Vx, Vy (R56), which
`encode` leaves zero. The `y` nibble of SHR and SHL, which R56 lists as decoded but unused, counts as read: DESIGN CHOICE
(log 33). -/
def readBits : Instr → Word
  | .cls => 0xF0FF#16
  | .ret => 0xF0FF#16
  | .seReg _ _ => 0xFFF0#16
  | .sneReg _ _ => 0xFFF0#16
  | .jp _ | .call _ | .seImm _ _ | .sneImm _ _ | .ldImm _ _ | .addImm _ _ | .ldReg _ _ | .orReg _ _ | .andReg _ _
  | .xorReg _ _ | .addReg _ _ | .subReg _ _ | .shr _ _ | .subn _ _ | .shl _ _ | .ldI _ | .jpV0 _ | .rnd _ _
  | .drw _ _ _ | .skp _ | .sknp _ | .ldVxDt _ | .ldVxK _ | .ldDtVx _ | .ldStVx _ | .addI _ | .ldF _ | .ldB _
  | .ldMemVx _ | .ldVxMem _ | .sys _ => 0xFFFF#16

/-! ### The host's reading of a table row -/

/-- The instruction the decoder reads from an instruction of `nbits` bits whose word is `w` (bit 0 the least significant;
every bit above `nbits` is 0): the word is laid out as memory holds it, high byte first, and decoded. -/
def decodeTableWord (nbits w : Nat) : Option Instr :=
  let word : Word := BitVec.ofNat 16 (w % 2 ^ nbits)
  match decodeBytes [Word.high word, Word.low word] with
  | .ok (i, _) => some i
  | .error _ => none

end Sys2Proof
end

