-- ==== Sys2Proof/Config.lean ====
section
/-! DEFINITION. The open parameters of spec 00_scope.md R5. `DRAW_EDGE` and `FONT` are fixed for a run: they are data of
the record `Config`, which State carries and no step writes (log 3), so that what is proved holds for every choice of
them. The random draw is an opaque constant: nothing is known of its values (log 2). The default values stand in
Machine/Parameters.lean. -/

namespace Sys2Proof

/-- The parameter `DRAW_EDGE`: what becomes of a sprite pixel beyond the display's edge (R5, R112). -/
inductive DrawEdge where
  | wrap
  | clip
deriving DecidableEq, Repr

/-- The two parameters that are fixed for a run (R5). -/
structure Config where
  /-- `DRAW_EDGE` (R112). -/
  drawEdge : DrawEdge
  /-- `FONT`, the 80 bytes of the glyph table (R46). -/
  font : Vector Byte 80
deriving DecidableEq, Repr

/-- The free input `rnd` (R5, R24, R101): the value of draw number `k`. It has no body, so nothing can be proved of any
value of it, nor of two successive draws. DESIGN CHOICE (log 2): the number of the draw is a counter in State. -/
opaque Config.rnd : Nat → Byte

end Sys2Proof
end

