-- ==== Sys2Proof/Machine/State.lean ====
section
/-! DEFINITION. The machine's state, as spec 10_state.md R10 lists it, and its reset value R26. Three further fields are
the model's own: the fault output of the last step (log 1), the number of random draws taken (log 2), and the parameters
fixed for a run (log 3). Widths are types, so the width invariant R25 holds of every state. -/

namespace Sys2Proof.Machine

/-- Memory: the bytes that differ from the reset contents, as (address, byte) pairs with strictly rising addresses below
4096 (R21, R30). What an unlisted address reads as, and the predicate `Memory.wf`, stand in Machine/Memory.lean (log 26). -/
abbrev Memory := List Host.Cell

/-- The three faults a step can report (R140). Reported, never stopping: R141. -/
inductive EngineFault where
  /-- Code 1: the fetched word selects no instruction; the word, and the address it was fetched from (R142). -/
  | unknownOpcode (word : Word) (pc : Addr)
  /-- Code 2: RET with an empty stack (R143). -/
  | stackUnderflow
  /-- Code 3: CALL with a full stack (R144). -/
  | stackOverflow
deriving DecidableEq, Repr

/-- Reasons for the machine to stop with a fault: NONE. R140 lists the faults of this hardware and R141 says that the core
continues after each of them, so a fault is reported in the next state's `fault` output and no constructor is needed here
(log 29). -/
inductive Fault where
deriving DecidableEq, Repr

/-- Reasons to refuse an instruction. -/
inductive Refusal where
  /-- Raised by an arm of `exec` whose instruction has no meaning yet. No arm does: every instruction is modelled
  (log 29). Safe: nothing is proved of a refused step. -/
  | notModelled (mnemonic : String)
deriving DecidableEq, Repr

/-- The display buffer: 32 rows of 64 one-bit cells, row 0 the top, bit 0 of a row the left edge (R18, R113). Cell `c` is bit
`c mod 64` of row `c / 64` (log 6); see `Display.cell` in Machine/Ops.lean. -/
abbrev Display := Vector (BitVec 64) 32

/-- The machine's state (R10), with the model's three own fields last. -/
structure State where
  /-- `V[0..15]` (R11); `V[15]` is VF (R12). -/
  v : Vector Byte 16
  /-- `I` (R13). -/
  i : Addr
  /-- `PC` (R14): the fetch address between steps, the advanced PC while an instruction executes. -/
  pc : Addr
  /-- `DT` (R15). -/
  dt : Byte
  /-- `ST` (R16). -/
  st : Byte
  /-- `STACK[0..15]` (R17): entries at index `sp` and above carry no meaning. -/
  stack : Vector Addr 16
  /-- `SP`, the stack depth 0 to 16 (R17). -/
  sp : Fin 17
  /-- `MEM` (R21). -/
  mem : Memory
  /-- `FB` (R18). -/
  fb : Display
  /-- `dirty` (R19). -/
  dirty : Bool
  /-- `KEY[0..15]` (R20). -/
  key : Vector Bool 16
  /-- The fault output of the step that last ended (R23, R75): the model's own field (log 1). -/
  fault : Option EngineFault
  /-- The number of draws of `rnd` taken so far (R24): the model's own field (log 2). -/
  rndDraws : Nat
  /-- The parameters of R5, fixed for a run: the model's own field (log 3). -/
  config : Config
deriving DecidableEq, Repr

/-- The state after `reset()` under the parameters `c`: every item at its value in R26. Memory lists nothing: an unlisted
address reads as its reset contents. -/
def State.resetWith (c : Config) : State where
  v := Vector.replicate 16 0#8
  i := 0x000#12
  pc := 0x200#12
  dt := 0#8
  st := 0#8
  stack := Vector.replicate 16 0#12
  sp := 0
  mem := []
  fb := Vector.replicate 32 0#64
  dirty := false
  key := Vector.replicate 16 false
  fault := none
  rndDraws := 0
  config := c

/-- The machine right after reset, under the default parameters of R5 (log 3). -/
def State.reset : State := State.resetWith Config.default

/-- What a step or a meaning answers. -/
abbrev Result := Host.Outcome State Fault Refusal

end Sys2Proof.Machine
end

