-- ==== Sys2Proof/Machine/Memory.lean ====
section
/-! DEFINITION. Memory as a canonical list (spec 20_memory.md R30 to R36): what an unlisted address reads as, one read, one
write, and the predicate that says the form holds. -/

namespace Sys2Proof.Machine

/-- What an address that memory does not list reads as: its reset contents, `FONT` at 0x000 to 0x04F and 0x00 above
(R26, R31). -/
def unlistedByte (c : Config) (a : Nat) : Byte :=
  if h : a < 80 then c.font[a] else 0#8

/-- The byte at address `a`. -/
def Memory.read (c : Config) : Memory → Nat → Byte
  | [], a => unlistedByte c a
  | (k, b) :: m, a => if k = a then b else Memory.read c m a

/-- Put the pair `(a, b)` in front of the first pair with a greater address. -/
def Memory.insert (a : Nat) (b : Byte) : Memory → Memory
  | [] => [(a, b)]
  | (k, u) :: m => if a < k then (a, b) :: (k, u) :: m else (k, u) :: Memory.insert a b m

/-- Forget what is listed at address `a`. -/
def Memory.erase (a : Nat) (m : Memory) : Memory := m.filter (fun cell => cell.1 != a)

/-- Store byte `b` at address `a`; a byte equal to the reset contents is not listed. -/
def Memory.write (c : Config) (m : Memory) (a : Nat) (b : Byte) : Memory :=
  if b = unlistedByte c a then Memory.erase a m else Memory.insert a b (Memory.erase a m)

/-- Every address listed is above `lo`, and the addresses rise strictly. -/
def Memory.risingFrom : Option Nat → Memory → Bool
  | _, [] => true
  | lo, (k, _) :: m => (match lo with | none => true | some l => decide (l < k)) && Memory.risingFrom (some k) m

/-- The canonical form: addresses strictly rising and below 4096, no entry equal to what an unlisted address reads as. -/
def Memory.wf (c : Config) (m : Memory) : Bool :=
  Memory.risingFrom none m && m.all (fun cell => decide (cell.1 < 4096) && decide (cell.2 ≠ unlistedByte c cell.1))

end Sys2Proof.Machine
end

