-- ==== Sys2Proof/Machine/Ops.lean ====
section
/-! DEFINITION. The named operations every meaning is built from: registers, memory bytes, stack, display, timers, and
reporting a fault (spec 00_scope.md R7, R8). -/

namespace Sys2Proof.Machine

/-! ### Registers (R7) -/

/-- `V[x]`. -/
def State.getV (s : State) (x : Reg) : Byte := s.v[x.val]

/-- `V[x] <- b`. -/
def State.setV (s : State) (x : Reg) (b : Byte) : State := { s with v := s.v.set x.val b }

/-- VF, the register that receives the flags (R12). -/
def vF : Reg := 15

/-- `I <- a`. -/
def State.setI (s : State) (a : Addr) : State := { s with i := a }

/-- `pc <- a`. -/
def State.setPc (s : State) (a : Addr) : State := { s with pc := a }

/-- `DT <- b`. -/
def State.setDt (s : State) (b : Byte) : State := { s with dt := b }

/-- `ST <- b`. -/
def State.setSt (s : State) (b : Byte) : State := { s with st := b }

/-- Write a result to `V[x]` and then a flag to VF: the flag is written last (R12, R103). -/
def State.setVThenFlag (s : State) (x : Reg) (result flag : Byte) : State :=
  (s.setV x result).setV vF flag

/-! ### Memory bytes (R36) -/

/-- `MemRead(a, 1)`. -/
def State.readByte (s : State) (a : Addr) : Byte := Memory.read s.config s.mem a.toNat

/-- `MemWrite(a, 1, b)`. -/
def State.writeByte (s : State) (a : Addr) (b : Byte) : State :=
  { s with mem := Memory.write s.config s.mem a.toNat b }

/-- A sequence of one-byte stores, in the order listed (R34). -/
def State.writeBytes (s : State) (cells : List (Addr × Byte)) : State :=
  cells.foldl (fun t cell => t.writeByte cell.1 cell.2) s

/-- A sequence of register loads, in the order listed. -/
def State.setRegs (s : State) (regs : List (Reg × Byte)) : State :=
  regs.foldl (fun t r => t.setV r.1 r.2) s

/-! ### Control flow (R86) -/

/-- The additional skip over one word: `pc <- (pc + 2) mod 4096` where the condition holds (R86 (b)). -/
def State.skipIf (s : State) (b : Bool) : State := if b then s.setPc (s.pc + 2#12) else s

/-- The entry `STACK[k]` (R17). -/
def State.stackEntry (s : State) (k : Fin 16) : Addr := s.stack[k.val]

/-- Push on a stack that is not full: `STACK[SP] <- a; SP <- SP + 1` (R17). -/
def State.push (s : State) (a : Addr) (h : s.sp.val < 16) : State :=
  { s with stack := s.stack.set s.sp.val a, sp := ⟨s.sp.val + 1, by omega⟩ }

/-- Pop a stack that is not empty: `SP <- SP - 1`; the popped value is `STACK[SP]` (R17). -/
def State.pop (s : State) (h : 0 < s.sp.val) : Addr × State :=
  (s.stackEntry ⟨s.sp.val - 1, by omega⟩, { s with sp := ⟨s.sp.val - 1, by omega⟩ })

/-! ### Faults (R8, R147) -/

/-- `raise F`: the fault output of the current step becomes `f`, and the instruction writes nothing else. This is the one
shared operation by which every fault is taken; nothing is saved and control goes nowhere (R147). There is no return from
a fault (R148), so none stands beside it. -/
def State.raise (s : State) (f : EngineFault) : State := { s with fault := some f }

/-- The fetch address of the word under execution, from the advanced PC: `(pc - 2) mod 4096` (R85). -/
def State.fetchAddress (s : State) : Addr := s.pc - 2#12

/-- The behaviour of an UNKNOWN word (R85): report it with its fetch address; nothing else happens. -/
def State.raiseUnknown (s : State) (w : Word) : State := s.raise (.unknownOpcode w s.fetchAddress)

/-! ### Display (R18, R19, R113) -/

/-- Cell `c = column + row*64` of a display (R18). -/
def Display.cell (d : Display) (c : Nat) : Bool :=
  if h : c < 2048 then (d[c / 64]'(by omega)).getLsbD (c % 64) else false

/-- `FB[c] <- FB[c] xor 1`. -/
def Display.flip (d : Display) (c : Nat) : Display :=
  if h : c < 2048 then d.set (c / 64) ((d[c / 64]'(by omega)) ^^^ BitVec.twoPow 64 (c % 64)) (by omega) else d

/-- The display with every cell 0 (R110). -/
def Display.clear : Display := Vector.replicate 32 0#64

/-- `FB[c]`. -/
def State.cell (s : State) (c : Nat) : Bool := Display.cell s.fb c

/-- A display write: the new cells, and `dirty <- 1` (R19 (b)). -/
def State.setDisplay (s : State) (fb : Display) : State := { s with fb := fb, dirty := true }

/-! ### The timer tick (R151) -/

/-- One count down, floored at zero. -/
def countDown (b : Byte) : Byte := if b = 0#8 then 0#8 else b - 1#8

/-- Phase 5 of every step: both timers count down (R151). -/
def State.tick (s : State) : State := { s with dt := countDown s.dt, st := countDown s.st }

/-! ### The phases before execute (R70 phases 0 to 2) -/

/-- Phase 0: `dirty <- 0`, `fault <- none`. -/
def State.beginStep (s : State) : State := { s with dirty := false, fault := none }

/-- Phase 1: the word at `MEM[pc]`, `MEM[(pc+1) mod 4096]`, high byte first (R33, R37, R71). -/
def State.fetchedWord (s : State) : Word := wordOfBytes (s.readByte s.pc) (s.readByte (s.pc + 1#12))

/-- Phase 2: `pc <- (pc + 2) mod 4096` (R72). -/
def State.advance (s : State) : State := s.setPc (s.pc + 2#12)

/-! ### The key latch (R20) -/

/-- `KEY[k] = 1`. -/
def State.keyDown (s : State) (k : KeyIndex) : Bool := s.key[k.val]

/-- The lowest pressed key, if any is pressed (R122, log 17). -/
def State.lowestKey (s : State) : Option KeyIndex := (List.finRange 16).find? (fun k => s.keyDown k)

/-! ### The free input `rnd` (R101) -/

/-- The value of the next draw. -/
def State.nextRnd (s : State) : Byte := Config.rnd s.rndDraws

/-- Count one draw as taken. -/
def State.takeRnd (s : State) : State := { s with rndDraws := s.rndDraws + 1 }

end Sys2Proof.Machine
end

