-- ==== Sys2Proof/Machine/Flags.lean ====
section
/-! DEFINITION. Every value the flag writers put in VF (spec 10_state.md R28; 41_alu.md R102). -/

namespace Sys2Proof.Machine

/-- A condition as the flag value 1 or 0. -/
def flagOf (b : Bool) : Byte := if b then 1#8 else 0#8

/-- ADD Vx, Vy: 1 exactly when the unmasked sum exceeds 0xFF (R96). -/
def carryFlag (a b : Byte) : Byte := flagOf (decide (a.toNat + b.toNat > 0xFF))

/-- SUB and SUBN: 1 exactly when the minuend is strictly greater (R97, R99, R102). -/
def greaterFlag (minuend subtrahend : Byte) : Byte := flagOf (decide (minuend.toNat > subtrahend.toNat))

/-- SHR: the bit shifted out, as 0 or 1 (R98). -/
def shiftedOutLow (a : Byte) : Byte := a &&& 0x01#8

/-- SHL: the old bit 7 in place, 0x00 or 0x80, not 0 or 1 (R100). -/
def shiftedOutHigh (a : Byte) : Byte := a &&& 0x80#8

/-- ADD I, Vx: 1 exactly when the sum exceeds 0xFFF (R131, log 11). -/
def indexCarryFlag (i : Addr) (b : Byte) : Byte := flagOf (decide (i.toNat + b.toNat > 0xFFF))

end Sys2Proof.Machine
end

