-- ==== Sys2Proof/Machine/Operands.lean ====
section
/-! DEFINITION. The operand forms beyond a plain register or immediate: data addresses, jump targets, the key index, the
font address, decimal digits, register ranges, sprite positions (spec 20_memory.md R36; 40 R84; 42 R112, R113; 43 R126;
44 R132 to R135). -/

namespace Sys2Proof.Machine

/-- The data address `(I + k) mod 4096` (R36). -/
def dataAddr (i : Addr) (k : Nat) : Addr := i + BitVec.ofNat 12 k

/-- The target `(nnn + V[0]) mod 4096` of JP V0, nnn (R84). -/
def offsetTarget (nnn : Addr) (v0 : Byte) : Addr := nnn + v0.setWidth 12

/-- The key index `V[x] mod 16` of SKP and SKNP (R126, log 16). -/
def keyIndexOf (b : Byte) : KeyIndex := ⟨b.toNat % 16, by omega⟩

/-- The glyph address `V[x] * 5` of LD F, Vx; the whole register counts (R132). -/
def fontAddr (b : Byte) : Addr := BitVec.ofNat 12 (b.toNat * 5)

/-- The hundreds digit (R133). -/
def hundreds (b : Byte) : Byte := BitVec.ofNat 8 (b.toNat / 100)
/-- The tens digit (R133). -/
def tens (b : Byte) : Byte := BitVec.ofNat 8 (b.toNat / 10 % 10)
/-- The units digit (R133). -/
def units (b : Byte) : Byte := BitVec.ofNat 8 (b.toNat % 10)

/-- The stores of LD B, Vx: hundreds at `I`, tens at `I + 1`, units at `I + 2` (R133). -/
def digitStores (i : Addr) (b : Byte) : List (Addr × Byte) :=
  [(dataAddr i 0, hundreds b), (dataAddr i 1, tens b), (dataAddr i 2, units b)]

/-- The registers `V[0..x]`, ascending (R134, R135). -/
def regsUpTo (x : Reg) : List Reg := (List.finRange 16).filter (fun k => decide (k ≤ x))

/-- The stores of LD [I], Vx: `V[k]` at `I + k` for `k` in 0 to x (R134). -/
def blockStores (s : State) (x : Reg) : List (Addr × Byte) :=
  (regsUpTo x).map (fun k => (dataAddr s.i k.val, s.getV k))

/-- The loads of LD Vx, [I]: `V[k]` from `I + k` for `k` in 0 to x (R135). -/
def blockLoads (s : State) (x : Reg) : List (Reg × Byte) :=
  (regsUpTo x).map (fun k => (k, s.readByte (dataAddr s.i k.val)))

/-- `I` after a block transfer: `(I + x + 1) mod 4096` (R134, R135). -/
def afterBlock (i : Addr) (x : Reg) : Addr := dataAddr i (x.val + 1)

/-! ### Sprites -/

/-- The cell a sprite pixel at the unreduced position `(ux, uy)` falls on, if it is drawn (R112, R113). -/
def pixelCell (edge : DrawEdge) (ux uy : Nat) : Option Nat :=
  match edge with
  | .wrap => some (ux % 64 + uy % 32 * 64)
  | .clip => if ux > 63 ∨ uy > 31 then none else some (ux + uy * 64)

/-- The display cells while a sprite is drawn, and whether a set cell has become unset. -/
structure Canvas where
  fb : Display
  collision : Bool
deriving DecidableEq, Repr

/-- XOR one cell, noting a collision (R111). -/
def Canvas.flip (p : Canvas) (c : Nat) : Canvas :=
  ⟨Display.flip p.fb c, p.collision || Display.cell p.fb c⟩

/-- Draw the pixel of column `col` of a sprite row: bit `7 - col` of the row's byte (R111, R113). -/
def Canvas.drawPixel (edge : DrawEdge) (vx uy : Nat) (row : Byte) (p : Canvas) (col : Nat) : Canvas :=
  if row.getLsbD (7 - col) then
    match pixelCell edge (vx + col) uy with
    | none => p
    | some c => p.flip c
  else p

/-- Draw the eight columns of one sprite row. -/
def Canvas.drawRow (edge : DrawEdge) (vx uy : Nat) (row : Byte) (p : Canvas) : Canvas :=
  (List.range 8).foldl (Canvas.drawPixel edge vx uy row) p

/-- Draw `n` sprite rows read from memory at `I, I + 1, …`, with the top-left corner at column `vx`, row `vy` (R111). -/
def drawSprite (s : State) (vx vy n : Nat) : Canvas :=
  (List.range n).foldl
    (fun p row => Canvas.drawRow s.config.drawEdge vx (vy + row) (s.readByte (dataAddr s.i row)) p) ⟨s.fb, false⟩

end Sys2Proof.Machine
end

