-- ==== Sys2Proof/Machine/Alu.lean ====
section
/-! DEFINITION. Register load, arithmetic, logic, shift and random instructions (spec 41_alu.md). Operands are read first,
the result is written next, a flag last (R103). -/

namespace Sys2Proof.Machine

/-- LD Vx, nn (R90). -/
def execLdImm (x : Reg) (nn : Byte) (s : State) : Result := .next (s.setV x nn)

/-- ADD Vx, nn: no flag (R91). -/
def execAddImm (x : Reg) (nn : Byte) (s : State) : Result := .next (s.setV x (s.getV x + nn))

/-- LD Vx, Vy (R92, log 10). -/
def execLdReg (x y : Reg) (s : State) : Result := .next (s.setV x (s.getV y))

/-- OR Vx, Vy: no flag (R93, log 12). -/
def execOrReg (x y : Reg) (s : State) : Result := .next (s.setV x (s.getV x ||| s.getV y))

/-- AND Vx, Vy: no flag (R94, log 12). -/
def execAndReg (x y : Reg) (s : State) : Result := .next (s.setV x (s.getV x &&& s.getV y))

/-- XOR Vx, Vy: no flag (R95, log 12). -/
def execXorReg (x y : Reg) (s : State) : Result := .next (s.setV x (s.getV x ^^^ s.getV y))

/-- ADD Vx, Vy (R96). -/
def execAddReg (x y : Reg) (s : State) : Result :=
  .next (s.setVThenFlag x (s.getV x + s.getV y) (carryFlag (s.getV x) (s.getV y)))

/-- SUB Vx, Vy (R97). -/
def execSubReg (x y : Reg) (s : State) : Result :=
  .next (s.setVThenFlag x (s.getV x - s.getV y) (greaterFlag (s.getV x) (s.getV y)))

/-- SHR Vx: in place, `y` not used (R98, log 14). -/
def execShr (x _y : Reg) (s : State) : Result :=
  .next (s.setVThenFlag x (s.getV x >>> 1) (shiftedOutLow (s.getV x)))

/-- SUBN Vx, Vy (R99). -/
def execSubn (x y : Reg) (s : State) : Result :=
  .next (s.setVThenFlag x (s.getV y - s.getV x) (greaterFlag (s.getV y) (s.getV x)))

/-- SHL Vx: in place, `y` not used (R100, log 14). -/
def execShl (x _y : Reg) (s : State) : Result :=
  .next (s.setVThenFlag x (s.getV x <<< 1) (shiftedOutHigh (s.getV x)))

/-- RND Vx, nn: one fresh draw (R101, log 2). -/
def execRnd (x : Reg) (nn : Byte) (s : State) : Result := .next (s.takeRnd.setV x (s.nextRnd &&& nn))

end Sys2Proof.Machine
end

