-- ==== Sys2Proof/Machine/Control.lean ====
section
/-! DEFINITION. Control transfer: RET, JP, CALL, the four register skips, JP V0, SYS (spec 40_cycle_and_control.md). In
every meaning `s.pc` is the advanced PC (R72, log 30). -/

namespace Sys2Proof.Machine

/-- RET (R77). -/
def execRet (s : State) : Result :=
  if h : 0 < s.sp.val then .next ((s.pop h).2.setPc (s.pop h).1)
  else .next (s.raise .stackUnderflow)

/-- JP nnn (R78). -/
def execJp (nnn : Addr) (s : State) : Result := .next (s.setPc nnn)

/-- CALL nnn (R79). -/
def execCall (nnn : Addr) (s : State) : Result :=
  if h : s.sp.val < 16 then .next ((s.push s.pc h).setPc nnn)
  else .next (s.raise .stackOverflow)

/-- SE Vx, nn (R80). -/
def execSeImm (x : Reg) (nn : Byte) (s : State) : Result := .next (s.skipIf (s.getV x == nn))

/-- SNE Vx, nn (R81). -/
def execSneImm (x : Reg) (nn : Byte) (s : State) : Result := .next (s.skipIf (s.getV x != nn))

/-- SE Vx, Vy (R82). -/
def execSeReg (x y : Reg) (s : State) : Result := .next (s.skipIf (s.getV x == s.getV y))

/-- SNE Vx, Vy (R83). -/
def execSneReg (x y : Reg) (s : State) : Result := .next (s.skipIf (s.getV x != s.getV y))

/-- JP V0, nnn (R84). -/
def execJpV0 (nnn : Addr) (s : State) : Result := .next (s.setPc (offsetTarget nnn (s.getV 0)))

/-- SYS nnn: UNKNOWN (R59, R85). -/
def execSys (nnn : Addr) (s : State) : Result := .next (s.raiseUnknown (encode (.sys nnn)))

end Sys2Proof.Machine
end

