-- ==== Sys2Proof/Machine/Display.lean ====
section
/-! DEFINITION. The display instructions CLS and DRW (spec 42_display.md). -/

namespace Sys2Proof.Machine

/-- CLS: every cell 0, `dirty` set (R110). -/
def execCls (s : State) : Result := .next (s.setDisplay Display.clear)

/-- DRW Vx, Vy, n (R111): the coordinates are read before VF is written; VF and `dirty` are always written. -/
def execDrw (x y : Reg) (n : BitVec 4) (s : State) : Result :=
  let p := drawSprite s (s.getV x).toNat (s.getV y).toNat n.toNat
  .next ((s.setDisplay p.fb).setV vF (flagOf p.collision))

end Sys2Proof.Machine
end

