-- ==== Sys2Proof/Machine/IndexMemory.lean ====
section
/-! DEFINITION. Index-register and memory instructions (spec 44_index_memory.md). Every write of `I` is reduced modulo 4096
(R13). -/

namespace Sys2Proof.Machine

/-- LD I, nnn (R130). -/
def execLdI (nnn : Addr) (s : State) : Result := .next (s.setI nnn)

/-- ADD I, Vx: VF receives the carry out of 12 bits, last (R131, log 11). -/
def execAddI (x : Reg) (s : State) : Result :=
  .next ((s.setI (dataAddr s.i (s.getV x).toNat)).setV vF (indexCarryFlag s.i (s.getV x)))

/-- LD F, Vx (R132). -/
def execLdF (x : Reg) (s : State) : Result := .next (s.setI (fontAddr (s.getV x)))

/-- LD B, Vx: three stores, `I` unchanged (R133). -/
def execLdB (x : Reg) (s : State) : Result := .next (s.writeBytes (digitStores s.i (s.getV x)))

/-- LD [I], Vx: x + 1 stores, then `I` advances (R134). -/
def execLdMemVx (x : Reg) (s : State) : Result := .next ((s.writeBytes (blockStores s x)).setI (afterBlock s.i x))

/-- LD Vx, [I]: x + 1 loads, then `I` advances (R135). -/
def execLdVxMem (x : Reg) (s : State) : Result := .next ((s.setRegs (blockLoads s x)).setI (afterBlock s.i x))

end Sys2Proof.Machine
end

