-- ==== Sys2Proof/Machine/KeysTimers.lean ====
section
/-! DEFINITION. Key-input and timer instructions (spec 43_keys_timers.md). -/

namespace Sys2Proof.Machine

/-- SKP Vx (R120). -/
def execSkp (x : Reg) (s : State) : Result := .next (s.skipIf (s.keyDown (keyIndexOf (s.getV x))))

/-- SKNP Vx (R121). -/
def execSknp (x : Reg) (s : State) : Result := .next (s.skipIf (!s.keyDown (keyIndexOf (s.getV x))))

/-- LD Vx, K: the lowest pressed key, or back to this instruction's own fetch address (R122). -/
def execLdVxK (x : Reg) (s : State) : Result :=
  match s.lowestKey with
  | some k => .next (s.setV x (BitVec.ofNat 8 k.val))
  | none => .next (s.setPc s.fetchAddress)

/-- LD Vx, DT: the value before this step's tick (R123). -/
def execLdVxDt (x : Reg) (s : State) : Result := .next (s.setV x s.dt)

/-- LD DT, Vx: this step's tick follows (R124). -/
def execLdDtVx (x : Reg) (s : State) : Result := .next (s.setDt (s.getV x))

/-- LD ST, Vx: this step's tick follows (R125). -/
def execLdStVx (x : Reg) (s : State) : Result := .next (s.setSt (s.getV x))

end Sys2Proof.Machine
end

