-- ==== Sys2Proof/Machine/Cycle.lean ====
section
/-! DEFINITION. The instruction cycle (spec 40_cycle_and_control.md R70): what stands around `exec`. -/

namespace Sys2Proof.Machine

/-- The state in which phase 4 begins: outputs cleared, PC advanced (R70 phases 0 to 2). -/
def State.enterExecute (s : State) : State := s.beginStep.advance

/-- Phase 5 on the answer of phase 4: the timer tick, whatever the instruction did (R151). -/
def finishStep : Result → Result
  | .next s => .next s.tick
  | .fault r => .fault r
  | .refused r => .refused r

/-- Phase 4: the decoded instruction's meaning, or the UNKNOWN behaviour R85 where the word selects none (log 4). -/
def executeWord (w : Word) (s : State) : Result :=
  match decode w with
  | .ok i => exec i s
  | .error _ => .next (s.raiseUnknown w)

/-- One whole `step()`. -/
def cycle (s : State) : Result := finishStep (executeWord s.fetchedWord s.enterExecute)

/-- Store a word at the fetch address, high byte first (R33, R37). -/
def State.placeWord (s : State) (w : Word) : State :=
  s.writeBytes [(s.pc, Word.high w), (s.pc + 1#12, Word.low w)]

end Sys2Proof.Machine
end

