-- ==== Sys2Proof/Machine/Step.lean ====
section
/-! DEFINITION. One step of the machine (spec 40_cycle_and_control.md R70), and the host's way to place the next
instruction (log 24). -/

namespace Sys2Proof.Machine

/-- `step()` (R70, R153). The step's outcome (R75) is read off the next state: `dirty` and `fault`. -/
def step (s : State) : Host.Outcome State Fault Refusal := cycle s

/-- The state `s` with the instruction of `nbits` bits and word `w` stored where the next step fetches: at `pc` and
`(pc + 1) mod 4096`, high byte first. Nothing else changes. -/
def State.withFetchWord (s : State) (nbits w : Nat) : State := s.placeWord (BitVec.ofNat 16 (w % 2 ^ nbits))

end Sys2Proof.Machine
end

