-- ==== Sys2Proof/Machine/Transactions.lean ====
section
/-! DEFINITION. The host's transactions (spec 60_exceptions.md R153 to R156; 70_reset_and_hazards.md R170 to R174): atomic
moves strictly between steps, in one total order (log 25). A system before its first `reset()` has no state (R27, log 23). -/

namespace Sys2Proof.Machine

/-- The output of a step (R75): read off the state the step leaves. -/
structure StepOutcome where
  dirty : Bool
  fault : Option EngineFault
deriving DecidableEq, Repr

/-- The outcome of the step that led to this state (R19 (d), R23). -/
def State.outcome (s : State) : StepOutcome := ⟨s.dirty, s.fault⟩

/-- The error of `load` (R145). -/
inductive LoadError where
  | tooLarge
deriving DecidableEq, Repr

/-- The greatest program length, 4096 - 0x200 (R4, R171). -/
def maxProgramLength : Nat := 0xE00

/-- The stores of `load`: byte `k` of the image at `0x200 + k` (R47, R171). -/
def imageStores (bytes : List Byte) : List (Addr × Byte) :=
  bytes.zipIdx.map (fun p => (dataAddr 0x200#12 p.2, p.1))

/-- `load(bytes)` (R171): too many bytes change nothing and answer TooLarge (R145). -/
def State.load (s : State) (bytes : List Byte) : Except LoadError State :=
  if bytes.length > maxProgramLength then .error .tooLarge else .ok (s.writeBytes (imageStores bytes))

/-- `reset()` (R170) on a machine that has run: every item of R10 at its reset value. The parameters stay (R112), and the
count of random draws goes on, so that no draw is seen twice (log 22). -/
def State.hostReset (s : State) : State := { State.resetWith s.config with rndDraws := s.rndDraws }

/-- `set_key(index, pressed)` (R154): an index above 15 is a no-op. -/
def State.setKey (s : State) (index : Nat) (pressed : Bool) : State :=
  if h : index < 16 then { s with key := s.key.set index pressed } else s

/-- `display()` (R155): the 2048 cells. -/
def State.display (s : State) : Vector Bool 2048 := Vector.ofFn (fun c => s.cell c.val)

/-- What `registers()` answers (R156): SP and the stack are included. -/
structure Registers where
  v : Vector Byte 16
  i : Addr
  pc : Addr
  dt : Byte
  st : Byte
  sp : Fin 17
  stack : Vector Addr 16
deriving DecidableEq, Repr

/-- `registers()` (R156). -/
def State.registers (s : State) : Registers := ⟨s.v, s.i, s.pc, s.dt, s.st, s.sp, s.stack⟩

/-- `memory()` (R156): the 4096 bytes. -/
def State.memory (s : State) : Vector Byte 4096 := Vector.ofFn (fun a => s.readByte (BitVec.ofFin (w := 12) a))

/-- A transaction of the host (R153 to R156, R170, R171). -/
inductive Transaction where
  | reset
  | load (bytes : List Byte)
  | step
  | setKey (index : Nat) (pressed : Bool)
  | display
  | registers
  | memory
deriving DecidableEq, Repr

/-- What a transaction answers. -/
inductive Reply where
  /-- `reset`, a successful `load`, `set_key`. -/
  | ok
  | loadError (e : LoadError)
  | outcome (o : StepOutcome)
  | cells (fb : Vector Bool 2048)
  | registers (r : Registers)
  | bytes (m : Vector Byte 4096)
  /-- The transaction came before the first `reset()`: the spec gives it no meaning (R27, R172). -/
  | noMeaning
  /-- The step stopped. No step does (R76, R141). -/
  | stopped
deriving DecidableEq, Repr

/-- The system: before the first `reset()` the state is unspecified (R27); only the parameters are fixed. -/
inductive System where
  | unreset (config : Config)
  | running (s : State)
deriving DecidableEq, Repr

/-- A transaction on a machine that has been reset. -/
def State.transact (s : State) : Transaction → State × Reply
  | .reset => (s.hostReset, .ok)
  | .load bytes =>
    match s.load bytes with
    | .ok t => (t, .ok)
    | .error e => (s, .loadError e)
  | .step =>
    match Sys2Proof.Machine.step s with
    | .next t => (t, .outcome t.outcome)
    | .fault _ => (s, .stopped)
    | .refused _ => (s, .stopped)
  | .setKey index pressed => (s.setKey index pressed, .ok)
  | .display => (s, .cells s.display)
  | .registers => (s, .registers s.registers)
  | .memory => (s, .bytes s.memory)

/-- One transaction of the host (R172, R174). -/
def System.transact : System → Transaction → System × Reply
  | .unreset c, .reset => (.running (State.resetWith c), .ok)
  | .unreset c, _ => (.unreset c, .noMeaning)
  | .running s, t => (.running (s.transact t).1, (s.transact t).2)

/-- A sequence of transactions, in the host's order (R174). -/
def System.transactAll (y : System) (ts : List Transaction) : System :=
  ts.foldl (fun z t => (z.transact t).1) y

end Sys2Proof.Machine
end

