-- ==== Sys2Proof/Safety.lean ====
section
/-! DEFINITION. The terms claims are stated in: the invariant of every state, what an instruction leaves unchanged (its
frame), and what counts as a safe run. -/

namespace Sys2Proof

open Machine

/-! ### The invariant -/

/-- Memory keeps its canonical form (log 26). The width invariant R25 holds of every state by its type. -/
def Machine.State.wf (s : State) : Prop := Memory.wf s.config s.mem = true

/-- A system's state, if it has one, keeps the invariant. -/
def Machine.System.wf : System → Prop
  | .unreset _ => True
  | .running s => s.wf

/-! ### Frames -/

/-- The parts of State other than registers and memory bytes. -/
inductive Part where
  | pc
  | i
  | dt
  | st
  | stack
  | display
  | dirty
  | fault
  | draws
deriving DecidableEq, Repr

/-- From `s` to `t` nothing changes but the general registers `regs`, the parts `parts` and the memory bytes at `bytes`:
every other register, part and byte is as before. The key latch and the parameters never change (R20, R112). -/
structure Frame (s t : State) (regs : List Reg) (parts : List Part) (bytes : List Addr) : Prop where
  regs : ∀ r, r ∉ regs → t.getV r = s.getV r
  pc : .pc ∉ parts → t.pc = s.pc
  i : .i ∉ parts → t.i = s.i
  dt : .dt ∉ parts → t.dt = s.dt
  st : .st ∉ parts → t.st = s.st
  stack : .stack ∉ parts → t.sp = s.sp ∧ t.stack = s.stack
  display : .display ∉ parts → t.fb = s.fb
  dirty : .dirty ∉ parts → t.dirty = s.dirty
  fault : .fault ∉ parts → t.fault = s.fault
  draws : .draws ∉ parts → t.rndDraws = s.rndDraws
  bytes : ∀ a, a ∉ bytes → t.readByte a = s.readByte a
  key : t.key = s.key
  config : t.config = s.config

/-! ### The spec's own descriptions, for statements to hold the model against -/

/-- The UNKNOWN words, family by family, as the table of R58 lists them. -/
def unknownWord (w : Word) : Bool :=
  match w.toNat / 4096 with
  | 0x0 => !([0xE0, 0xEE].contains (w.toNat % 256))
  | 0x8 => [0x8, 0x9, 0xA, 0xB, 0xC, 0xD, 0xF].contains (w.toNat % 16)
  | 0xE => !([0x9E, 0xA1].contains (w.toNat % 256))
  | 0xF => !([0x07, 0x0A, 0x15, 0x18, 0x1E, 0x29, 0x33, 0x55, 0x65].contains (w.toNat % 256))
  | _ => false

/-- Sprite pixel `(row, col)` of the n-row sprite at `I`, drawn from column `vx` and row `vy`, is set and falls on cell `c`:
its bit, 7 the leftmost, is 1, and its unreduced position is reduced modulo 64 and 32 (wrap) or lies inside (clip) (R111 to
R113). -/
def spriteCovers (s : State) (vx vy n c : Nat) : Prop :=
  ∃ row, row < n ∧ ∃ col, col < 8 ∧
    (s.readByte (BitVec.ofNat 12 (s.i.toNat + row))).getLsbD (7 - col) = true ∧
    match s.config.drawEdge with
    | .wrap => c = (vx + col) % 64 + (vy + row) % 32 * 64
    | .clip => vx + col ≤ 63 ∧ vy + row ≤ 31 ∧ c = vx + col + (vy + row) * 64

/-! ### Safe runs -/

/-- The end-of-run convention of 70_reset_and_hazards.md R180: the word at PC is a jump to itself. No notion of the
hardware. -/
def finishedAt (s : State) (a : Addr) : Prop := s.pc = a ∧ decode s.fetchedWord = .ok (.jp a)

/-- At most one key is pressed. -/
def atMostOneKey (s : State) : Prop := ∀ j k, s.keyDown j = true → s.keyDown k = true → j = k

/-- In the state `s` in which `i` executes, no point of 93_implementation_defined.md is touched on which a conservative
reader would not rely: U2 (odd targets), U3 (addresses and `I` past 0xFFF), U4 (faults), U5 (key index), U6 (several keys),
U10 (display edge). Where this holds, the spec's own choices (logs 7, 8, 15, 16, 17, 3) decide nothing. -/
def settled (i : Instr) (s : State) : Prop :=
  match i with
  | .ret => 0 < s.sp.val
  | .jp nnn => nnn.toNat % 2 = 0
  | .call nnn => s.sp.val < 16 ∧ nnn.toNat % 2 = 0
  | .jpV0 nnn => nnn.toNat + (s.getV 0).toNat ≤ 0xFFF ∧ (nnn.toNat + (s.getV 0).toNat) % 2 = 0
  | .sys _ => False
  | .drw x y n =>
    s.i.toNat + n.toNat ≤ 0x1000 ∧ (s.getV x).toNat + 7 ≤ 63 ∧ (s.getV y).toNat + n.toNat ≤ 32
  | .skp x | .sknp x => (s.getV x).toNat ≤ 15
  | .ldVxK _ => atMostOneKey s
  | .addI x => s.i.toNat + (s.getV x).toNat ≤ 0xFFF
  | .ldB _ => s.i.toNat + 2 ≤ 0xFFF
  | .ldMemVx x | .ldVxMem x => s.i.toNat + x.val + 1 ≤ 0xFFF
  | .cls | .seImm _ _ | .sneImm _ _ | .seReg _ _ | .sneReg _ _ | .ldImm _ _ | .addImm _ _ | .ldReg _ _ | .orReg _ _
  | .andReg _ _ | .xorReg _ _ | .addReg _ _ | .subReg _ _ | .shr _ _ | .subn _ _ | .shl _ _ | .ldI _ | .rnd _ _
  | .ldVxDt _ | .ldDtVx _ | .ldStVx _ | .ldF _ => True

/-- A step from `s` is safe: PC is even and below 0xFFC, so that neither the advance nor a skip passes the top of memory
(U1, U2), and the word is an instruction that `settled` admits. -/
def safeStep (s : State) : Prop :=
  s.pc.toNat % 2 = 0 ∧ s.pc.toNat < 0xFFC ∧ ∃ i, decode s.fetchedWord = .ok i ∧ settled i s.enterExecute

/-- Every one of the next `k` steps is safe. -/
def safeRun : Nat → State → Prop
  | 0, _ => True
  | k + 1, s => safeStep s ∧ ∃ t, step s = .next t ∧ safeRun k t

end Sys2Proof
end

