-- ==== Sys2Proof/Certificates/Slice0/Obligations.lean ====
section
/-! DEFINITION. The statements for the provers. An effect is stated of `exec i s`, where `s.pc` is the advanced PC (spec R72,
log 30); `Frame s t regs parts bytes` says that nothing else changes. A statement marked "spec's choice" rests on a decision
that 92_eei_decisions.md records as the spec's own. Where a statement names an encoding it is the one its rule prints; the
opcode assignment as a whole is marked by the spec as general knowledge (93_implementation_defined.md G1, log 10). -/

open Sys2Proof Sys2Proof.Machine

/-! ## Encoding -/

/-- Decoding the canonical word of a well-formed instruction gives it back, with every operand at every value; the same for
its two bytes followed by any others (R50 to R53, R57; spec's choice: the opcode assignment, log 10). -/
def Obligations.DecodeOfEncodeIsTheInstruction : Prop :=
  ∀ i : Instr, WellFormed i = true →
    decode (encode i) = .ok i ∧ ∀ rest, decodeBytes (encodeBytes i ++ rest) = .ok (i, rest)

/-- Whatever a word decodes to is well-formed, and its canonical word is that word with the ignored bits of CLS, RET, SE Vx, Vy
and SNE Vx, Vy set to zero; so no read bit is dropped, and two words that decode to one instruction differ in those bits only
(spec's choice: D7, D40, log 9; the model's choice: the unused `y` of SHR and SHL is kept, log 33). -/
def Obligations.EncodeOfDecodeClearsIgnoredBits : Prop :=
  ∀ (w : Word) (i : Instr), decode w = .ok i → WellFormed i = true ∧ encode i = w &&& readBits i

/-- The decoder agrees with the opcode map R57: a word decodes to an instruction whose row it fits, row 35 only where rows 1
and 2 do not fit, and is rejected, as unknownOpcode of that word, exactly where it fits no row (R57, R58, R63; spec's
choice: D7, D40, log 9; the assignment, G1, log 10). -/
def Obligations.DecoderFollowsTheOpcodeMap : Prop :=
  ∀ w : Word,
    match decode w with
    | .ok i => w &&& (rowOf i).mask = (rowOf i).value ∧
        ((∃ nnn, i = .sys nnn) → w &&& 0xF0FF#16 ≠ 0x00E0#16 ∧ w &&& 0xF0FF#16 ≠ 0x00EE#16)
    | .error e => e = .unknownOpcode w ∧ ∀ j : Instr, w &&& (rowOf j).mask ≠ (rowOf j).value

/-- A word decodes to no instruction, or to SYS only, exactly where R58's table of UNKNOWN words lists it, family by family
(`unknownWord`; spec's choice: D7, D8, D40, logs 4, 9). -/
def Obligations.UnknownWordsAreTheListedOnes : Prop :=
  ∀ w : Word,
    (∀ i, decode w = .ok i → ∃ nnn, i = .sys nnn) ↔ unknownWord w = true

/-- Words of the spec's worked examples and vectors decode to the instructions named there: at least one word of each of
the sixteen primary nibbles (95_test_vectors.md S1, S2, S4, S5, V-ALU, V-CTL, V-DSP, V-KEY, V-MEM; spec's choice: 0x0CE0 and
0x5231 have ignored bits set, D40, log 9; 0x8018 is UNKNOWN, D7, logs 4, 9; the assignment as a whole, G1, log 10). -/
def Obligations.ExampleWordsDecodeAsPrinted : Prop :=
  decode 0x6005#16 = .ok (.ldImm 0 5#8) ∧ decode 0x8014#16 = .ok (.addReg 0 1) ∧
  decode 0x1200#16 = .ok (.jp 0x200#12) ∧ decode 0x2300#16 = .ok (.call 0x300#12) ∧
  decode 0x00EE#16 = .ok .ret ∧ decode 0x0CE0#16 = .ok .cls ∧
  decode 0xA20A#16 = .ok (.ldI 0x20A#12) ∧ decode 0xD012#16 = .ok (.drw 0 1 2#4) ∧
  decode 0x3A42#16 = .ok (.seImm 10 0x42#8) ∧ decode 0x4A42#16 = .ok (.sneImm 10 0x42#8) ∧
  decode 0x7002#16 = .ok (.addImm 0 2#8) ∧ decode 0x9230#16 = .ok (.sneReg 2 3) ∧
  decode 0xB300#16 = .ok (.jpV0 0x300#12) ∧ decode 0xC00F#16 = .ok (.rnd 0 0x0F#8) ∧
  decode 0x5231#16 = .ok (.seReg 2 3) ∧ decode 0x801E#16 = .ok (.shl 0 1) ∧
  decode 0xE0A1#16 = .ok (.sknp 0) ∧ decode 0xF30A#16 = .ok (.ldVxK 3) ∧
  decode 0xF265#16 = .ok (.ldVxMem 2) ∧ decode 0x8018#16 = .error (.unknownOpcode 0x8018#16)

/-! ## Reset and the invariant -/

/-- After reset every piece of state has the value of R26: from any state by the host's `reset()`, and in
`State.reset`. The bytes below 0x050 are those of the parameter FONT. -/
def Obligations.ResetGivesEveryPieceItsValue : Prop :=
  ∀ s t : State, t = s.hostReset ∨ t = State.reset →
    (∀ r, t.getV r = 0#8) ∧ t.i = 0x000#12 ∧ t.pc = 0x200#12 ∧ t.dt = 0#8 ∧ t.st = 0#8 ∧ t.sp = 0 ∧
    (∀ k, t.stackEntry k = 0x000#12) ∧
    (∀ (a : Addr) (h : a.toNat < 80), t.readByte a = t.config.font[a.toNat]) ∧
    (∀ a : Addr, 80 ≤ a.toNat → t.readByte a = 0#8) ∧
    (∀ c, t.cell c = false) ∧ t.dirty = false ∧ (∀ k, t.keyDown k = false)

/-- The state after reset, under any parameters, has memory in its canonical form. The form is the model's choice
(log 26). -/
def Obligations.ResetMemoryIsCanonical : Prop :=
  State.reset.wf ∧ ∀ (c : Config) (s : State), (State.resetWith c).wf ∧ s.hostReset.wf

/-- Every step keeps memory in its canonical form, from every state that has it. The form is the model's choice (log 26). -/
def Obligations.StepKeepsMemoryCanonical : Prop :=
  ∀ s t : State, s.wf → step s = .next t → t.wf

/-- Every sequence of host transactions keeps memory in its canonical form, from any system that has it. The form is the
model's choice (log 26; what a transaction is before the first reset, D28, log 23, and the order of transactions, D25, D27,
log 25). -/
def Obligations.TransactionsKeepMemoryCanonical : Prop :=
  ∀ (y : System) (ts : List Transaction), y.wf → (y.transactAll ts).wf

/-! ## The step -/

/-- The word at PC, high byte first, is what a step runs: where it decodes to `i`, the step is `exec i` in the state with
the outputs cleared and PC advanced by 2 modulo 4096, followed by one count down of both timers (R33, R37, R70 to R72, R151;
spec's choice: D2, D16, D17, logs 7, 19, 27; the fault output is no state of the core, D14, and stands in State, log 1; exec
begins in phase 4, log 30). -/
def Obligations.StepRunsTheDecodedInstruction : Prop :=
  ∀ (s : State) (i : Instr),
    decode (BitVec.ofNat 16 (256 * (s.readByte s.pc).toNat + (s.readByte (s.pc + 1#12)).toNat)) = .ok i →
    step s =
      match exec i { s with dirty := false, fault := none, pc := s.pc + 2#12 } with
      | .next t => .next { t with dt := BitVec.ofNat 8 (t.dt.toNat - 1), st := BitVec.ofNat 8 (t.st.toNat - 1) }
      | .fault r => .fault r
      | .refused r => .refused r

/-- A word that selects no row is UNKNOWN: the step clears the outputs, reports the word with its fetch address in the fault
output, advances PC by 2, ticks the timers and changes nothing else (R70, R85, R142; spec's choice: D2, D8, D14 to D17, logs
4, 7, 19, 27; the fault output stands in State, log 1). -/
def Obligations.StepReportsAnUnknownWord : Prop :=
  ∀ (s : State) (e : DecodeError), decode s.fetchedWord = .error e →
    step s = .next { s with
      dirty := false, fault := some (.unknownOpcode s.fetchedWord s.pc), pc := s.pc + 2#12,
      dt := BitVec.ofNat 8 (s.dt.toNat - 1), st := BitVec.ofNat 8 (s.st.toNat - 1) }

/-- Every instruction, in every state and on every operand, answers a next state: no instruction stops the machine (R140,
R141, R147; spec's choice: D13, log 15). -/
def Obligations.EveryInstructionCompletes : Prop :=
  ∀ (i : Instr) (s : State), ∃ t, exec i s = .next t

/-- A step always ends, and in a next state, from every state and whatever the word at PC (R76, R141; spec's choice: D13,
log 15). -/
def Obligations.StepAlwaysAnswersANextState : Prop :=
  ∀ s : State, ∃ t, step s = .next t

/-- Both timers count down by one in every step, floored at 0, whatever the step did and whether or not it reported a fault;
LD DT, Vx and LD ST, Vx load their timer before that count (R151, R175, R176; spec's choice: D16, log 27). -/
def Obligations.TimersTickInEveryStep : Prop :=
  ∀ s t : State, step s = .next t →
    (t.dt.toNat = (match decode s.fetchedWord with
      | .ok (.ldDtVx x) => (s.getV x).toNat
      | _ => s.dt.toNat) - 1) ∧
    (t.st.toNat = (match decode s.fetchedWord with
      | .ok (.ldStVx x) => (s.getV x).toNat
      | _ => s.st.toNat) - 1)

/-- The dirty output of a step is 1 exactly when the step executed CLS or DRW (R19, R75; spec's choice: D17, log 19; the
bits the masks leave out, D7, D40, log 9). -/
def Obligations.DirtyMarksDisplayInstructions : Prop :=
  ∀ s t : State, step s = .next t →
    (t.dirty = true ↔ s.fetchedWord &&& 0xF0FF#16 = 0x00E0#16 ∨ s.fetchedWord &&& 0xF000#16 = 0xD000#16)

/-- The fault output of a step: UnknownOpcode with word and fetch address for a word that is UNKNOWN, StackUnderflow for RET
on an empty stack, StackOverflow for CALL on a full one, none for every other step; so at most one fault, never latched
(R23, R140, R142 to R144, R146; spec's choice: D7, D8, D13 to D15, D40, logs 4, 9, 15, 27; it stands in State, log 1). -/
def Obligations.FaultOutputIsExactlyTheThreeCauses : Prop :=
  ∀ s t : State, step s = .next t →
    t.fault =
      if unknownWord s.fetchedWord = true then some (.unknownOpcode s.fetchedWord s.pc)
      else if s.fetchedWord &&& 0xF0FF#16 = 0x00EE#16 ∧ s.sp.val = 0 then some .stackUnderflow
      else if s.fetchedWord &&& 0xF000#16 = 0x2000#16 ∧ s.sp.val = 16 then some .stackOverflow
      else none

/-- A faulting instruction has no effect of its own: where a step reports a fault, it changed nothing but PC by the advance,
the timers by the tick, and the two outputs (R8, R147; spec's choice: D13, log 15; that the timers tick in a faulting step,
D16, log 27; the advance modulo 4096, D2, log 7; dirty is cleared at the start of the step and so is 0 here, D17, log 19;
the fault output stands in State, D14, log 1). -/
def Obligations.FaultingStepHasNoOtherEffect : Prop :=
  ∀ s t : State, step s = .next t → t.fault ≠ none →
    t.pc = s.pc + 2#12 ∧ t.dt.toNat = s.dt.toNat - 1 ∧ t.st.toNat = s.st.toNat - 1 ∧ t.dirty = false ∧
      Frame s t [] [.pc, .dt, .st, .dirty, .fault] []

/-! ## Rules over all instructions -/

/-- No instruction but the seven flag writers writes VF as a side effect: in every other step VF changes only if the
instruction names VF as its destination, or loads the whole file with LD VF, [I] (R12, R28; spec's choice: D6, D11, logs 11,
12). -/
def Obligations.OnlyTheFlagWritersTouchVF : Prop :=
  ∀ s t : State, step s = .next t → t.getV vF ≠ s.getV vF →
    ∃ i, decode s.fetchedWord = .ok i ∧
      ((∃ x y, i = .addReg x y) ∨ (∃ x y, i = .subReg x y) ∨ (∃ x y, i = .shr x y) ∨ (∃ x y, i = .subn x y) ∨
       (∃ x y, i = .shl x y) ∨ (∃ x y n, i = .drw x y n) ∨ (∃ x, i = .addI x) ∨
       (∃ nn, i = .ldImm vF nn) ∨ (∃ nn, i = .addImm vF nn) ∨ (∃ y, i = .ldReg vF y) ∨ (∃ y, i = .orReg vF y) ∨
       (∃ y, i = .andReg vF y) ∨ (∃ y, i = .xorReg vF y) ∨ (∃ nn, i = .rnd vF nn) ∨ i = .ldVxDt vF ∨
       i = .ldVxK vF ∨ i = .ldVxMem vF)

/-- A step changes a byte of memory only if it executes LD B, Vx on one of the three bytes from `I`, or LD [I], Vx on one of
the x + 1 bytes from `I`, addresses modulo 4096 (R21, R34, R36, R38; spec's choice: D4, log 8). -/
def Obligations.OnlyTheTwoStoresChangeMemory : Prop :=
  ∀ (s t : State) (a : Addr), step s = .next t → t.readByte a ≠ s.readByte a →
    (∃ x, decode s.fetchedWord = .ok (.ldB x) ∧ ∃ k, k < 3 ∧ a.toNat = (s.i.toNat + k) % 4096) ∨
    (∃ x, decode s.fetchedWord = .ok (.ldMemVx x) ∧ ∃ k, k ≤ x.val ∧ a.toNat = (s.i.toNat + k) % 4096)

/-- Who writes the rest of the state. In a step: FB changes only under CLS and DRW (R18); the stack only under CALL and RET
(R17); `I` only under LD I, ADD I, LD F and the block transfers (R13); DT and ST other than by the tick only under LD DT and
LD ST (R15, R16); PC other than by the advance only under RET, JP, CALL, JP V0, the skips and LD Vx, K (R14); and the key
latch and the parameters under nothing (R20, R112; spec's choice: the advance modulo 4096, D2, log 7; the tick in every
step, D16, log 27; the array form of the stack, D35, log 5; the model's choice: the parameters stand in State, log 3). -/
def Obligations.EachPartHasItsNamedWriters : Prop :=
  ∀ s t : State, step s = .next t →
    (t.fb ≠ s.fb → decode s.fetchedWord = .ok .cls ∨ ∃ x y n, decode s.fetchedWord = .ok (.drw x y n)) ∧
    (t.sp ≠ s.sp ∨ t.stack ≠ s.stack → decode s.fetchedWord = .ok .ret ∨ ∃ nnn, decode s.fetchedWord = .ok (.call nnn)) ∧
    (t.i ≠ s.i → (∃ nnn, decode s.fetchedWord = .ok (.ldI nnn)) ∨
      ∃ x, decode s.fetchedWord ∈ [.ok (.addI x), .ok (.ldF x), .ok (.ldMemVx x), .ok (.ldVxMem x)]) ∧
    (t.dt.toNat ≠ s.dt.toNat - 1 → ∃ x, decode s.fetchedWord = .ok (.ldDtVx x)) ∧
    (t.st.toNat ≠ s.st.toNat - 1 → ∃ x, decode s.fetchedWord = .ok (.ldStVx x)) ∧
    (t.pc ≠ s.pc + 2#12 → decode s.fetchedWord = .ok .ret ∨
      (∃ nnn, decode s.fetchedWord ∈ [.ok (.jp nnn), .ok (.call nnn), .ok (.jpV0 nnn)]) ∨
      (∃ x nn, decode s.fetchedWord ∈ [.ok (.seImm x nn), .ok (.sneImm x nn)]) ∨
      (∃ x y, decode s.fetchedWord ∈ [.ok (.seReg x y), .ok (.sneReg x y)]) ∨
      (∃ x, decode s.fetchedWord ∈ [.ok (.skp x), .ok (.sknp x), .ok (.ldVxK x)])) ∧
    t.key = s.key ∧ t.config = s.config

/-- The outputs and the sound timer are invisible to a program: two states that differ only in ST, in the fault output and
in the dirty output step to states that differ in ST only (R16, R19, R23, R141; spec's choice: the fault output is not
latched, D14, log 27, and dirty is cleared at the start of a step, D17, log 19; the model's choice: the fault output stands
in State, log 1). -/
def Obligations.OutputsAndSoundTimerAreInvisible : Prop :=
  ∀ (s t : State) (b : Byte) (f : Option EngineFault) (d : Bool), step s = .next t →
    ∃ t', step { s with st := b, fault := f, dirty := d } = .next t' ∧ t' = { t with st := t'.st }

/-- Stack entries at index SP and above carry no meaning: two states that agree but for such entries step to states that
agree but for such entries, with the same outcome (R17; the array form is the spec's choice D35, log 5). -/
def Obligations.DeadStackEntriesCarryNoMeaning : Prop :=
  ∀ (s t : State) (other : Vector Addr 16), (∀ k : Fin 16, k.val < s.sp.val → other[k] = s.stack[k]) →
    step s = .next t →
    ∃ t', step { s with stack := other } = .next t' ∧ t' = { t with stack := t'.stack } ∧
      ∀ k : Fin 16, k.val < t.sp.val → t'.stack[k] = t.stack[k]

/-- A jump to itself is a fixed point but for the timers (R78, R180): PC stays, the timers count down, no output is raised
(spec's choice: dirty is cleared at the start of the step, D17, log 19; the fault output stands in State, D14, log 1). -/
def Obligations.JumpToSelfStaysPut : Prop :=
  ∀ s : State, decode s.fetchedWord = .ok (.jp s.pc) →
    ∃ t, step s = .next t ∧ t.pc = s.pc ∧ t.dirty = false ∧ t.fault = none ∧
      t.dt.toNat = s.dt.toNat - 1 ∧ t.st.toNat = s.st.toNat - 1 ∧ Frame s t [] [.dt, .st, .dirty, .fault] []

/-- Self-modifying code takes effect at once: LD [I], Vx that stores over the next instruction's two bytes makes the next
step fetch V0 and V1 as its word (R44, R177; spec's choice: D32, log 26; addresses modulo 4096, D2 to D4, logs 7, 8). -/
def Obligations.StoredInstructionIsFetchedNext : Prop :=
  ∀ (s : State) (x : Reg), 1 ≤ x.val → s.i = s.pc →
    ∃ t, exec (.ldMemVx x) s = .next t ∧ t.pc = s.pc ∧
      t.fetchedWord.toNat = 256 * (s.getV 0).toNat + (s.getV 1).toNat

/-! ## Control transfer (file 40) -/

/-- JP nnn (R78): the encoding `0x1nnn`; PC becomes nnn; nothing else changes. -/
def Obligations.JumpSetsPC : Prop :=
  ∀ (nnn : Addr) (s : State), decode (wordNNN 0x1#4 nnn) = .ok (.jp nnn) ∧
    ∃ t, exec (.jp nnn) s = .next t ∧ t.pc = nnn ∧ Frame s t [] [.pc] []

/-- CALL nnn (R79, R144): below depth 16 the advanced PC is pushed and PC becomes nnn; at depth 16 nothing happens but the
report StackOverflow (spec's choice: D13, log 15; the array form of the stack, D35, log 5; the fault output stands in State,
D14, log 1). -/
def Obligations.CallPushesAndJumps : Prop :=
  ∀ (nnn : Addr) (s : State), decode (wordNNN 0x2#4 nnn) = .ok (.call nnn) ∧
    (∀ h : s.sp.val < 16, ∃ t, exec (.call nnn) s = .next t ∧ t.pc = nnn ∧ t.sp.val = s.sp.val + 1 ∧
      t.stackEntry ⟨s.sp.val, h⟩ = s.pc ∧ (∀ k : Fin 16, k.val ≠ s.sp.val → t.stackEntry k = s.stackEntry k) ∧
      Frame s t [] [.pc, .stack] []) ∧
    (s.sp.val = 16 → ∃ t, exec (.call nnn) s = .next t ∧ t.fault = some .stackOverflow ∧ Frame s t [] [.fault] [])

/-- RET (R77, R143): on a stack that is not empty PC becomes the newest entry and the depth falls by one; on an empty stack
nothing happens but the report StackUnderflow. Bits 11:8 of the word are ignored (spec's choice: D13, D40, logs 9, 15; the
array form of the stack, D35, log 5; the fault output stands in State, D14, log 1). -/
def Obligations.ReturnPopsTheNewestEntry : Prop :=
  ∀ (s : State) (ignored : Reg), decode (wordXNN 0x0#4 ignored 0xEE#8) = .ok .ret ∧
    (∀ h : 0 < s.sp.val, ∃ t, exec .ret s = .next t ∧ t.pc = s.stackEntry ⟨s.sp.val - 1, by omega⟩ ∧
      t.sp.val = s.sp.val - 1 ∧ (∀ k : Fin 16, k.val < t.sp.val → t.stackEntry k = s.stackEntry k) ∧
      Frame s t [] [.pc, .stack] []) ∧
    (s.sp.val = 0 → ∃ t, exec .ret s = .next t ∧ t.fault = some .stackUnderflow ∧ Frame s t [] [.fault] [])

/-- A RET that follows a CALL comes back to the instruction after the CALL, with the stack as it was (95_test_vectors.md S4):
whatever ran in between, as long as it left depth and entries alone (spec's choice: the array form, D35, log 5). -/
def Obligations.ReturnComesBackAfterTheCall : Prop :=
  ∀ (nnn : Addr) (s u w t : State), s.sp.val < 16 → exec (.call nnn) s = .next u →
    w.sp = u.sp → w.stack = u.stack → exec .ret w = .next t →
    t.pc = s.pc ∧ t.sp = s.sp ∧ ∀ k : Fin 16, k.val < s.sp.val → t.stackEntry k = s.stackEntry k

/-- SE Vx, nn and SNE Vx, nn (R80, R81): the encodings `0x3xnn` and `0x4xnn`; PC advances by a further 2 modulo 4096 exactly
when the unsigned values are equal (SE) or differ (SNE) (spec's choice: the modulus, D2, log 7). -/
def Obligations.SkipComparesWithImmediate : Prop :=
  ∀ (x : Reg) (nn : Byte) (s : State),
    (decode (wordXNN 0x3#4 x nn) = .ok (.seImm x nn) ∧
      ∃ t, exec (.seImm x nn) s = .next t ∧
        t.pc.toNat = (if (s.getV x).toNat = nn.toNat then (s.pc.toNat + 2) % 4096 else s.pc.toNat) ∧
        Frame s t [] [.pc] []) ∧
    (decode (wordXNN 0x4#4 x nn) = .ok (.sneImm x nn) ∧
      ∃ t, exec (.sneImm x nn) s = .next t ∧
        t.pc.toNat = (if (s.getV x).toNat ≠ nn.toNat then (s.pc.toNat + 2) % 4096 else s.pc.toNat) ∧
        Frame s t [] [.pc] [])

/-- SE Vx, Vy and SNE Vx, Vy (R82, R83): the encodings `0x5xy-` and `0x9xy-`, bits 3:0 ignored; PC advances by a further 2
modulo 4096 exactly when the registers are equal (SE) or differ (SNE) (spec's choice: the ignored bits, D40, log 9; the modulus
of the skip, D2, log 7). -/
def Obligations.SkipComparesRegisters : Prop :=
  ∀ (x y : Reg) (ignored : BitVec 4) (s : State),
    (decode (wordXYN 0x5#4 x y ignored) = .ok (.seReg x y) ∧
      ∃ t, exec (.seReg x y) s = .next t ∧
        t.pc.toNat = (if (s.getV x).toNat = (s.getV y).toNat then (s.pc.toNat + 2) % 4096 else s.pc.toNat) ∧
        Frame s t [] [.pc] []) ∧
    (decode (wordXYN 0x9#4 x y ignored) = .ok (.sneReg x y) ∧
      ∃ t, exec (.sneReg x y) s = .next t ∧
        t.pc.toNat = (if (s.getV x).toNat ≠ (s.getV y).toNat then (s.pc.toNat + 2) % 4096 else s.pc.toNat) ∧
        Frame s t [] [.pc] [])

/-- JP V0, nnn (R84): the encoding `0xBnnn`; PC becomes nnn + V[0] modulo 4096. -/
def Obligations.OffsetJumpAddsV0 : Prop :=
  ∀ (nnn : Addr) (s : State), decode (wordNNN 0xB#4 nnn) = .ok (.jpV0 nnn) ∧
    ∃ t, exec (.jpV0 nnn) s = .next t ∧ t.pc.toNat = (nnn.toNat + (s.getV 0).toNat) % 4096 ∧ Frame s t [] [.pc] []

/-- SYS nnn (R59, R85): it reports UnknownOpcode with its word and its fetch address, two below the advanced PC, and changes
nothing else (spec's choice: D2, D8, D15, logs 4, 7, 27; the fault output stands in State, D14, log 1). -/
def Obligations.SysOnlyReportsItself : Prop :=
  ∀ (nnn : Addr) (s : State), (WellFormed (.sys nnn) = true → decode (wordNNN 0x0#4 nnn) = .ok (.sys nnn)) ∧
    ∃ t, exec (.sys nnn) s = .next t ∧
      t.fault = some (.unknownOpcode (BitVec.ofNat 16 nnn.toNat) (BitVec.ofNat 12 (s.pc.toNat + 4094))) ∧
      Frame s t [] [.fault] []

/-! ## Registers and arithmetic (file 41) -/

/-- LD Vx, nn (R90): the encoding `0x6xnn`; V[x] becomes nn; nothing else changes. -/
def Obligations.LoadImmediateSetsVx : Prop :=
  ∀ (x : Reg) (nn : Byte) (s : State), decode (wordXNN 0x6#4 x nn) = .ok (.ldImm x nn) ∧
    ∃ t, exec (.ldImm x nn) s = .next t ∧ t.getV x = nn ∧ Frame s t [x] [] []

/-- ADD Vx, nn (R91): the encoding `0x7xnn`; V[x] becomes the sum modulo 256; VF, unless it is the destination, is left
alone even when the sum wraps. -/
def Obligations.AddImmediateLeavesTheFlag : Prop :=
  ∀ (x : Reg) (nn : Byte) (s : State), decode (wordXNN 0x7#4 x nn) = .ok (.addImm x nn) ∧
    ∃ t, exec (.addImm x nn) s = .next t ∧ (t.getV x).toNat = ((s.getV x).toNat + nn.toNat) % 256 ∧ Frame s t [x] [] []

/-- LD Vx, Vy (R92): V[x] becomes V[y]; nothing else changes (spec's choice: the instruction itself, D9, G2, log 10). -/
def Obligations.MoveCopiesVy : Prop :=
  ∀ (x y : Reg) (s : State), decode (wordXYN 0x8#4 x y 0x0#4) = .ok (.ldReg x y) ∧
    ∃ t, exec (.ldReg x y) s = .next t ∧ t.getV x = s.getV y ∧ Frame s t [x] [] []

/-- OR, AND, XOR Vx, Vy (R93 to R95): bit by bit, and VF, unless it is the destination, is left alone (spec's choice: D11,
log 12). -/
def Obligations.LogicIsBitwiseAndLeavesTheFlag : Prop :=
  ∀ (x y : Reg) (s : State),
    (decode (wordXYN 0x8#4 x y 0x1#4) = .ok (.orReg x y) ∧ ∃ t, exec (.orReg x y) s = .next t ∧
      (∀ k, k < 8 → (t.getV x).getLsbD k = ((s.getV x).getLsbD k || (s.getV y).getLsbD k)) ∧ Frame s t [x] [] []) ∧
    (decode (wordXYN 0x8#4 x y 0x2#4) = .ok (.andReg x y) ∧ ∃ t, exec (.andReg x y) s = .next t ∧
      (∀ k, k < 8 → (t.getV x).getLsbD k = ((s.getV x).getLsbD k && (s.getV y).getLsbD k)) ∧ Frame s t [x] [] []) ∧
    (decode (wordXYN 0x8#4 x y 0x3#4) = .ok (.xorReg x y) ∧ ∃ t, exec (.xorReg x y) s = .next t ∧
      (∀ k, k < 8 → (t.getV x).getLsbD k = ((s.getV x).getLsbD k ^^ (s.getV y).getLsbD k)) ∧ Frame s t [x] [] [])

/-- ADD Vx, Vy (R96): the encoding `0x8xy4`; VF is 1 exactly when the unmasked sum of the old values exceeds 0xFF, also for
x = 15 and y = 15; V[x], for x other than 15, is the sum modulo 256. -/
def Obligations.AddSetsCarry : Prop :=
  ∀ (x y : Reg) (s : State), decode (wordXYN 0x8#4 x y 0x4#4) = .ok (.addReg x y) ∧
    ∃ t, exec (.addReg x y) s = .next t ∧
      t.getV 15 = (if (s.getV x).toNat + (s.getV y).toNat > 0xFF then 1#8 else 0#8) ∧
      (x ≠ 15 → (t.getV x).toNat = ((s.getV x).toNat + (s.getV y).toNat) % 256) ∧ Frame s t [x, 15] [] []

/-- SUB Vx, Vy (R97): the encoding `0x8xy5`; VF is 1 exactly when the old V[x] is strictly greater than the old V[y]; V[x],
for x other than 15, is the difference modulo 256. -/
def Obligations.SubSetsStrictlyGreater : Prop :=
  ∀ (x y : Reg) (s : State), decode (wordXYN 0x8#4 x y 0x5#4) = .ok (.subReg x y) ∧
    ∃ t, exec (.subReg x y) s = .next t ∧
      t.getV 15 = (if (s.getV x).toNat > (s.getV y).toNat then 1#8 else 0#8) ∧
      (x ≠ 15 → ((t.getV x).toNat : Int) = ((s.getV x).toNat - (s.getV y).toNat : Int) % 256) ∧ Frame s t [x, 15] [] []

/-- SUBN Vx, Vy (R99): the encoding `0x8xy7`; as SUB with the operands swapped (spec's choice: the order for x = 15, D10,
log 13). -/
def Obligations.SubnSwapsTheOperands : Prop :=
  ∀ (x y : Reg) (s : State), decode (wordXYN 0x8#4 x y 0x7#4) = .ok (.subn x y) ∧
    ∃ t, exec (.subn x y) s = .next t ∧
      t.getV 15 = (if (s.getV y).toNat > (s.getV x).toNat then 1#8 else 0#8) ∧
      (x ≠ 15 → ((t.getV x).toNat : Int) = ((s.getV y).toNat - (s.getV x).toNat : Int) % 256) ∧ Frame s t [x, 15] [] []

/-- SHR Vx and SHL Vx (R98, R100): V[x] is shifted in place by one, whatever y; SHR leaves the old bit 0 in VF as 0 or 1, SHL
leaves 0x80 or 0x00 there, not 0 or 1 (spec's choice: the in-place operand D12, and the order for x = 15 D10; logs 13, 14). -/
def Obligations.ShiftsAreInPlace : Prop :=
  ∀ (x y : Reg) (s : State),
    (decode (wordXYN 0x8#4 x y 0x6#4) = .ok (.shr x y) ∧ ∃ t, exec (.shr x y) s = .next t ∧
      (t.getV 15).toNat = (s.getV x).toNat % 2 ∧ (x ≠ 15 → (t.getV x).toNat = (s.getV x).toNat / 2) ∧
      Frame s t [x, 15] [] []) ∧
    (decode (wordXYN 0x8#4 x y 0xE#4) = .ok (.shl x y) ∧ ∃ t, exec (.shl x y) s = .next t ∧
      (t.getV 15).toNat = (if (s.getV x).toNat ≥ 128 then 128 else 0) ∧
      (x ≠ 15 → (t.getV x).toNat = (s.getV x).toNat * 2 % 256) ∧ Frame s t [x, 15] [] [])

/-- RND Vx, nn (R101): V[x] becomes the bitwise AND of nn and a fresh draw, whatever the draw's value; the draw is counted
as taken; nothing else changes. The draw is a free value (spec's choice: D23; the counter in State is the model's, log 2).
-/
def Obligations.RandomIsMaskedByNn : Prop :=
  ∀ (x : Reg) (nn : Byte) (s : State), decode (wordXNN 0xC#4 x nn) = .ok (.rnd x nn) ∧
    ∃ t, exec (.rnd x nn) s = .next t ∧
      (∀ k, k < 8 → (t.getV x).getLsbD k = ((Config.rnd s.rndDraws).getLsbD k && nn.getLsbD k)) ∧
      t.rndDraws = s.rndDraws + 1 ∧ Frame s t [x] [.draws] []

/-! ## Display (file 42) -/

/-- CLS (R110): the encoding `0x0-E0` with bits 11:8 ignored; every cell becomes 0 and dirty becomes 1; nothing else
changes (spec's choice: D17, D40, logs 9, 19). -/
def Obligations.ClearZeroesEveryCell : Prop :=
  ∀ (s : State) (ignored : Reg), decode (wordXNN 0x0#4 ignored 0xE0#8) = .ok .cls ∧
    ∃ t, exec .cls s = .next t ∧ (∀ c, c < 2048 → t.cell c = false) ∧ t.dirty = true ∧
      Frame s t [] [.display, .dirty] []

/-- DRW Vx, Vy, n (R111, R112, R113), under either edge policy: each cell the sprite covers is inverted and no other cell
changes; VF becomes 1 if a covered cell was set, else 0; dirty becomes 1, also where no cell changes; `I` and memory stay
(spec's choice: D4, D18, D19, D20, logs 3, 8, 18; dirty on every DRW, D17, log 19). -/
def Obligations.DrawInvertsTheCoveredCells : Prop :=
  ∀ (x y : Reg) (n : BitVec 4) (s : State), decode (wordXYN 0xD#4 x y n) = .ok (.drw x y n) ∧
    ∃ t, exec (.drw x y n) s = .next t ∧
      (∀ c, spriteCovers s (s.getV x).toNat (s.getV y).toNat n.toNat c → t.cell c = !s.cell c) ∧
      (∀ c, ¬ spriteCovers s (s.getV x).toNat (s.getV y).toNat n.toNat c → t.cell c = s.cell c) ∧
      ((∃ c, spriteCovers s (s.getV x).toNat (s.getV y).toNat n.toNat c ∧ s.cell c = true) →
        t.getV 15 = 1#8) ∧
      ((∀ c, spriteCovers s (s.getV x).toNat (s.getV y).toNat n.toNat c → s.cell c = false) →
        t.getV 15 = 0#8) ∧
      t.dirty = true ∧ Frame s t [15] [.display, .dirty] []

/-- Drawing one sprite twice at one place restores the display, and the second draw collides exactly if some covered cell was
clear before the first; the coordinate registers hold the same values at both draws (R111 (g) for a display that was clear
under the sprite; log 31; spec's choice: D4, D18, D19, D20, logs 3, 8, 18). -/
def Obligations.DrawingTwiceRestoresTheDisplay : Prop :=
  ∀ (x y : Reg) (n : BitVec 4) (s t u : State), exec (.drw x y n) s = .next t → t.getV x = s.getV x → t.getV y = s.getV y →
    exec (.drw x y n) t = .next u →
    u.fb = s.fb ∧
    (u.getV 15 = 1#8 ↔
      ∃ c, spriteCovers s (s.getV x).toNat (s.getV y).toNat n.toNat c ∧ s.cell c = false)

/-! ## Keys and timers (file 43) -/

/-- SKP Vx and SKNP Vx (R120, R121, R126): PC advances by a further 2 modulo 4096 exactly when the key V[x] modulo 16 is down
(SKP) or up (SKNP); the latch is not changed (spec's choice: the modulus of the key
index, D21, log 16; the modulus of the skip, D2, log 7). -/
def Obligations.SkipTestsTheKeyLevel : Prop :=
  ∀ (x : Reg) (k : KeyIndex) (s : State), k.val = (s.getV x).toNat % 16 →
    (decode (wordXNN 0xE#4 x 0x9E#8) = .ok (.skp x) ∧ ∃ t, exec (.skp x) s = .next t ∧
      t.pc.toNat = (if s.keyDown k = true then (s.pc.toNat + 2) % 4096 else s.pc.toNat) ∧ Frame s t [] [.pc] []) ∧
    (decode (wordXNN 0xE#4 x 0xA1#8) = .ok (.sknp x) ∧ ∃ t, exec (.sknp x) s = .next t ∧
      t.pc.toNat = (if s.keyDown k = false then (s.pc.toNat + 2) % 4096 else s.pc.toNat) ∧ Frame s t [] [.pc] [])

/-- LD Vx, K (R122): with a key down, V[x] becomes the lowest pressed index and PC stays the advanced PC; with none, PC goes
back by 2 modulo 4096 to the instruction itself and V[x] stays (spec's choice: the lowest, D22, log 17; the polling, D36,
log 21; the modulus of the decrement, D2, log 7). -/
def Obligations.WaitForKeyPolls : Prop :=
  ∀ (x : Reg) (s : State), decode (wordXNN 0xF#4 x 0x0A#8) = .ok (.ldVxK x) ∧
    (∀ k : KeyIndex, s.keyDown k = true → (∀ j : KeyIndex, j < k → s.keyDown j = false) →
      ∃ t, exec (.ldVxK x) s = .next t ∧ (t.getV x).toNat = k.val ∧ Frame s t [x] [] []) ∧
    ((∀ k : KeyIndex, s.keyDown k = false) →
      ∃ t, exec (.ldVxK x) s = .next t ∧ t.pc.toNat = (s.pc.toNat + 4094) % 4096 ∧ Frame s t [] [.pc] [])

/-- LD Vx, DT (R123): V[x] becomes DT as it is before the step's tick (spec's choice: that the get reads DT, G6, log 10). -/
def Obligations.ReadTimerCopiesDT : Prop :=
  ∀ (x : Reg) (s : State), decode (wordXNN 0xF#4 x 0x07#8) = .ok (.ldVxDt x) ∧
    ∃ t, exec (.ldVxDt x) s = .next t ∧ t.getV x = s.dt ∧ Frame s t [x] [] []

/-- LD DT, Vx (R124): the encoding `0xFx15`; DT becomes V[x], and the tick of the same step leaves V[x] - 1, or 0. -/
def Obligations.SetDelayTimerThenTick : Prop :=
  ∀ (x : Reg) (s : State), decode (wordXNN 0xF#4 x 0x15#8) = .ok (.ldDtVx x) ∧
    (∃ t, exec (.ldDtVx x) s = .next t ∧ t.dt = s.getV x ∧ Frame s t [] [.dt] []) ∧
    (s.fetchedWord = wordXNN 0xF#4 x 0x15#8 → ∃ t, step s = .next t ∧ t.dt.toNat = (s.getV x).toNat - 1)

/-- LD ST, Vx (R125): the encoding `0xFx18`; ST becomes V[x], and the tick of the same step leaves V[x] - 1, or 0; nothing
else happens. -/
def Obligations.SetSoundTimerThenTick : Prop :=
  ∀ (x : Reg) (s : State), decode (wordXNN 0xF#4 x 0x18#8) = .ok (.ldStVx x) ∧
    (∃ t, exec (.ldStVx x) s = .next t ∧ t.st = s.getV x ∧ Frame s t [] [.st] []) ∧
    (s.fetchedWord = wordXNN 0xF#4 x 0x18#8 → ∃ t, step s = .next t ∧ t.st.toNat = (s.getV x).toNat - 1)

/-! ## Index and memory (file 44) -/

/-- LD I, nnn (R130): the encoding `0xAnnn`; `I` becomes nnn; nothing else changes. -/
def Obligations.LoadIndexSetsI : Prop :=
  ∀ (nnn : Addr) (s : State), decode (wordNNN 0xA#4 nnn) = .ok (.ldI nnn) ∧
    ∃ t, exec (.ldI nnn) s = .next t ∧ t.i = nnn ∧ Frame s t [] [.i] []

/-- ADD I, Vx (R131): `I` becomes the sum modulo 4096 and VF becomes 1 exactly when the sum of the old values exceeds 0xFFF
(spec's choice: D5, D6, logs 8, 11). -/
def Obligations.AddIndexReportsCarry : Prop :=
  ∀ (x : Reg) (s : State), decode (wordXNN 0xF#4 x 0x1E#8) = .ok (.addI x) ∧
    ∃ t, exec (.addI x) s = .next t ∧ t.i.toNat = (s.i.toNat + (s.getV x).toNat) % 4096 ∧
      t.getV 15 = (if s.i.toNat + (s.getV x).toNat > 0xFFF then 1#8 else 0#8) ∧ Frame s t [15] [.i] []

/-- LD F, Vx (R132): `I` becomes five times the whole of V[x] (spec's choice: the whole register, D37, log 21). -/
def Obligations.FontAddressIsFiveTimesVx : Prop :=
  ∀ (x : Reg) (s : State), decode (wordXNN 0xF#4 x 0x29#8) = .ok (.ldF x) ∧
    ∃ t, exec (.ldF x) s = .next t ∧ t.i.toNat = 5 * (s.getV x).toNat ∧ Frame s t [] [.i] []

/-- LD B, Vx (R133): the decimal digits of V[x], one byte each, hundreds at `I`, tens at `I` + 1, units at `I` + 2, addresses
modulo 4096; `I` and every other byte stay (spec's choice: D4, D37, logs 8, 21). -/
def Obligations.DecimalDigitsAreStored : Prop :=
  ∀ (x : Reg) (s : State), decode (wordXNN 0xF#4 x 0x33#8) = .ok (.ldB x) ∧
    ∃ t, exec (.ldB x) s = .next t ∧
      (t.readByte (BitVec.ofNat 12 s.i.toNat)).toNat = (s.getV x).toNat / 100 ∧
      (t.readByte (BitVec.ofNat 12 (s.i.toNat + 1))).toNat = (s.getV x).toNat / 10 % 10 ∧
      (t.readByte (BitVec.ofNat 12 (s.i.toNat + 2))).toNat = (s.getV x).toNat % 10 ∧
      Frame s t [] [] [dataAddr s.i 0, dataAddr s.i 1, dataAddr s.i 2]

/-- LD [I], Vx (R134): V[k] at `I` + k for k from 0 to x, addresses modulo 4096, then `I` advances by x + 1 modulo 4096; every
other byte stays (spec's choice: D4, D5, log 8). -/
def Obligations.BlockStoreWritesV0ToVx : Prop :=
  ∀ (x : Reg) (s : State), decode (wordXNN 0xF#4 x 0x55#8) = .ok (.ldMemVx x) ∧
    ∃ t, exec (.ldMemVx x) s = .next t ∧
      (∀ k : Reg, k.val ≤ x.val → t.readByte (BitVec.ofNat 12 (s.i.toNat + k.val)) = s.getV k) ∧
      t.i.toNat = (s.i.toNat + x.val + 1) % 4096 ∧
      Frame s t [] [.i] ((List.range (x.val + 1)).map (dataAddr s.i))

/-- LD Vx, [I] (R135): V[k] from `I` + k for k from 0 to x, addresses modulo 4096, then `I` advances by x + 1 modulo 4096;
the registers above x and all of memory stay (spec's choice: D4, D5, log 8). -/
def Obligations.BlockLoadReadsV0ToVx : Prop :=
  ∀ (x : Reg) (s : State), decode (wordXNN 0xF#4 x 0x65#8) = .ok (.ldVxMem x) ∧
    ∃ t, exec (.ldVxMem x) s = .next t ∧
      (∀ k : Reg, k.val ≤ x.val → t.getV k = s.readByte (BitVec.ofNat 12 (s.i.toNat + k.val))) ∧
      t.i.toNat = (s.i.toNat + x.val + 1) % 4096 ∧
      Frame s t ((List.finRange 16).filter (fun k => k.val ≤ x.val)) [.i] []

/-! ## The host's transactions (files 60 and 70) -/

/-- load(bytes) (R171): up to 0xE00 bytes land at 0x200 onward and nothing else changes (spec's choice: D25, D27, log 25).
-/
def Obligations.LoadPlacesTheImage : Prop :=
  ∀ (s : State) (bytes : List Byte), bytes.length ≤ 0xE00 →
    ∃ t, s.transact (.load bytes) = (t, .ok) ∧
      (∀ (k : Nat) (h : k < bytes.length), t.readByte (BitVec.ofNat 12 (0x200 + k)) = bytes[k]) ∧
      Frame s t [] [] ((List.range bytes.length).map (fun k => BitVec.ofNat 12 (0x200 + k)))

/-- load(bytes) with more than 0xE00 bytes answers TooLarge and leaves the whole state as it was (R145). -/
def Obligations.TooLargeLoadChangesNothing : Prop :=
  ∀ (s : State) (bytes : List Byte), 0xE00 < bytes.length → s.transact (.load bytes) = (s, .loadError .tooLarge)

/-- A reset erases the program before it: load of any image, reset, load of a second image leaves the system exactly as reset
and load of the second alone, from any system and whatever the first image; and where the second image is not too large,
the system then runs with byte k of it at 0x200 + k and 0 in every other byte from 0x050 up. With one image for both, the
round trip of the source (95_test_vectors.md S3d; R170, R171; spec's choice: load before the first reset, D27, D28, logs 23,
25; the model's choice: reset keeps the count of draws, log 22). -/
def Obligations.LoadResetLoadIsResetLoad : Prop :=
  ∀ (y : System) (first rom : List Byte),
    y.transactAll [.load first, .reset, .load rom] = y.transactAll [.reset, .load rom] ∧
    (rom.length ≤ 0xE00 → ∃ t, y.transactAll [.load first, .reset, .load rom] = .running t ∧
      (∀ (k : Nat) (h : k < rom.length), t.readByte (BitVec.ofNat 12 (0x200 + k)) = rom[k]) ∧
      ∀ a : Addr, 0x050 ≤ a.toNat → (∀ k, k < rom.length → a.toNat ≠ 0x200 + k) → t.readByte a = 0#8)

/-- set_key(index, pressed) (R154): one flag of the latch is set and nothing else changes; an index above 15 is a no-op
(spec's choice: D26, log 25). -/
def Obligations.SetKeyWritesOneFlag : Prop :=
  ∀ (s : State) (index : Nat) (pressed : Bool),
    (∀ k : KeyIndex, (s.setKey index pressed).keyDown k = if k.val = index then pressed else s.keyDown k) ∧
    (16 ≤ index → s.setKey index pressed = s) ∧
    (s.setKey index pressed) = { s with key := (s.setKey index pressed).key }

/-- The read accessors (R155, R156) show the cells, the registers and the 4096 bytes as they are, and change nothing (spec's
choice: between steps only, and the registers show SP and the stack, D25, D38, log 25; the model's choice in form: all
sixteen entries of the array are shown, also those at SP and above, D35, log 5). -/
def Obligations.AccessorsOnlyRead : Prop :=
  ∀ s : State,
    (∃ cells : Vector Bool 2048, s.transact .display = (s, .cells cells) ∧ ∀ c : Fin 2048, cells[c] = s.cell c.val) ∧
    (∃ m : Vector Byte 4096, s.transact .memory = (s, .bytes m) ∧
      ∀ a : Fin 4096, m[a] = s.readByte (BitVec.ofNat 12 a.val)) ∧
    s.transact .registers = (s, .registers ⟨s.v, s.i, s.pc, s.dt, s.st, s.sp, s.stack⟩)
end

