-- ==== Sys2Proof/Laws/State.lean ====
section
/-! SUPPORT. One lemma per field per state update, each true by `rfl`, so that no later proof unfolds a record update; and
the read accessors through every update. -/

namespace Sys2Proof.Machine

variable (s : State)

/-! ### `setV` -/

@[simp] theorem setV_v (x : Reg) (b : Byte) : (s.setV x b).v = s.v.set x.val b := rfl
@[simp] theorem setV_i (x : Reg) (b : Byte) : (s.setV x b).i = s.i := rfl
@[simp] theorem setV_pc (x : Reg) (b : Byte) : (s.setV x b).pc = s.pc := rfl
@[simp] theorem setV_dt (x : Reg) (b : Byte) : (s.setV x b).dt = s.dt := rfl
@[simp] theorem setV_st (x : Reg) (b : Byte) : (s.setV x b).st = s.st := rfl
@[simp] theorem setV_stack (x : Reg) (b : Byte) : (s.setV x b).stack = s.stack := rfl
@[simp] theorem setV_sp (x : Reg) (b : Byte) : (s.setV x b).sp = s.sp := rfl
@[simp] theorem setV_mem (x : Reg) (b : Byte) : (s.setV x b).mem = s.mem := rfl
@[simp] theorem setV_fb (x : Reg) (b : Byte) : (s.setV x b).fb = s.fb := rfl
@[simp] theorem setV_dirty (x : Reg) (b : Byte) : (s.setV x b).dirty = s.dirty := rfl
@[simp] theorem setV_key (x : Reg) (b : Byte) : (s.setV x b).key = s.key := rfl
@[simp] theorem setV_fault (x : Reg) (b : Byte) : (s.setV x b).fault = s.fault := rfl
@[simp] theorem setV_rndDraws (x : Reg) (b : Byte) : (s.setV x b).rndDraws = s.rndDraws := rfl
@[simp] theorem setV_config (x : Reg) (b : Byte) : (s.setV x b).config = s.config := rfl
@[simp] theorem setV_readByte (x : Reg) (b : Byte) (p : Addr) : (s.setV x b).readByte p = s.readByte p := rfl
@[simp] theorem setV_cell (x : Reg) (b : Byte) (c : Nat) : (s.setV x b).cell c = s.cell c := rfl
@[simp] theorem setV_keyDown (x : Reg) (b : Byte) (k : KeyIndex) : (s.setV x b).keyDown k = s.keyDown k := rfl
@[simp] theorem setV_stackEntry (x : Reg) (b : Byte) (k : Fin 16) : (s.setV x b).stackEntry k = s.stackEntry k := rfl
@[simp] theorem setV_lowestKey (x : Reg) (b : Byte) : (s.setV x b).lowestKey = s.lowestKey := rfl

/-! ### `setI` -/

@[simp] theorem setI_v (a : Addr) : (s.setI a).v = s.v := rfl
@[simp] theorem setI_i (a : Addr) : (s.setI a).i = a := rfl
@[simp] theorem setI_pc (a : Addr) : (s.setI a).pc = s.pc := rfl
@[simp] theorem setI_dt (a : Addr) : (s.setI a).dt = s.dt := rfl
@[simp] theorem setI_st (a : Addr) : (s.setI a).st = s.st := rfl
@[simp] theorem setI_stack (a : Addr) : (s.setI a).stack = s.stack := rfl
@[simp] theorem setI_sp (a : Addr) : (s.setI a).sp = s.sp := rfl
@[simp] theorem setI_mem (a : Addr) : (s.setI a).mem = s.mem := rfl
@[simp] theorem setI_fb (a : Addr) : (s.setI a).fb = s.fb := rfl
@[simp] theorem setI_dirty (a : Addr) : (s.setI a).dirty = s.dirty := rfl
@[simp] theorem setI_key (a : Addr) : (s.setI a).key = s.key := rfl
@[simp] theorem setI_fault (a : Addr) : (s.setI a).fault = s.fault := rfl
@[simp] theorem setI_rndDraws (a : Addr) : (s.setI a).rndDraws = s.rndDraws := rfl
@[simp] theorem setI_config (a : Addr) : (s.setI a).config = s.config := rfl
@[simp] theorem setI_getV (a : Addr) (r : Reg) : (s.setI a).getV r = s.getV r := rfl
@[simp] theorem setI_readByte (a : Addr) (p : Addr) : (s.setI a).readByte p = s.readByte p := rfl
@[simp] theorem setI_cell (a : Addr) (c : Nat) : (s.setI a).cell c = s.cell c := rfl
@[simp] theorem setI_keyDown (a : Addr) (k : KeyIndex) : (s.setI a).keyDown k = s.keyDown k := rfl
@[simp] theorem setI_stackEntry (a : Addr) (k : Fin 16) : (s.setI a).stackEntry k = s.stackEntry k := rfl
@[simp] theorem setI_lowestKey (a : Addr) : (s.setI a).lowestKey = s.lowestKey := rfl

/-! ### `setPc` -/

@[simp] theorem setPc_v (a : Addr) : (s.setPc a).v = s.v := rfl
@[simp] theorem setPc_i (a : Addr) : (s.setPc a).i = s.i := rfl
@[simp] theorem setPc_pc (a : Addr) : (s.setPc a).pc = a := rfl
@[simp] theorem setPc_dt (a : Addr) : (s.setPc a).dt = s.dt := rfl
@[simp] theorem setPc_st (a : Addr) : (s.setPc a).st = s.st := rfl
@[simp] theorem setPc_stack (a : Addr) : (s.setPc a).stack = s.stack := rfl
@[simp] theorem setPc_sp (a : Addr) : (s.setPc a).sp = s.sp := rfl
@[simp] theorem setPc_mem (a : Addr) : (s.setPc a).mem = s.mem := rfl
@[simp] theorem setPc_fb (a : Addr) : (s.setPc a).fb = s.fb := rfl
@[simp] theorem setPc_dirty (a : Addr) : (s.setPc a).dirty = s.dirty := rfl
@[simp] theorem setPc_key (a : Addr) : (s.setPc a).key = s.key := rfl
@[simp] theorem setPc_fault (a : Addr) : (s.setPc a).fault = s.fault := rfl
@[simp] theorem setPc_rndDraws (a : Addr) : (s.setPc a).rndDraws = s.rndDraws := rfl
@[simp] theorem setPc_config (a : Addr) : (s.setPc a).config = s.config := rfl
@[simp] theorem setPc_getV (a : Addr) (r : Reg) : (s.setPc a).getV r = s.getV r := rfl
@[simp] theorem setPc_readByte (a : Addr) (p : Addr) : (s.setPc a).readByte p = s.readByte p := rfl
@[simp] theorem setPc_cell (a : Addr) (c : Nat) : (s.setPc a).cell c = s.cell c := rfl
@[simp] theorem setPc_keyDown (a : Addr) (k : KeyIndex) : (s.setPc a).keyDown k = s.keyDown k := rfl
@[simp] theorem setPc_stackEntry (a : Addr) (k : Fin 16) : (s.setPc a).stackEntry k = s.stackEntry k := rfl
@[simp] theorem setPc_lowestKey (a : Addr) : (s.setPc a).lowestKey = s.lowestKey := rfl

/-! ### `setDt` -/

@[simp] theorem setDt_v (b : Byte) : (s.setDt b).v = s.v := rfl
@[simp] theorem setDt_i (b : Byte) : (s.setDt b).i = s.i := rfl
@[simp] theorem setDt_pc (b : Byte) : (s.setDt b).pc = s.pc := rfl
@[simp] theorem setDt_dt (b : Byte) : (s.setDt b).dt = b := rfl
@[simp] theorem setDt_st (b : Byte) : (s.setDt b).st = s.st := rfl
@[simp] theorem setDt_stack (b : Byte) : (s.setDt b).stack = s.stack := rfl
@[simp] theorem setDt_sp (b : Byte) : (s.setDt b).sp = s.sp := rfl
@[simp] theorem setDt_mem (b : Byte) : (s.setDt b).mem = s.mem := rfl
@[simp] theorem setDt_fb (b : Byte) : (s.setDt b).fb = s.fb := rfl
@[simp] theorem setDt_dirty (b : Byte) : (s.setDt b).dirty = s.dirty := rfl
@[simp] theorem setDt_key (b : Byte) : (s.setDt b).key = s.key := rfl
@[simp] theorem setDt_fault (b : Byte) : (s.setDt b).fault = s.fault := rfl
@[simp] theorem setDt_rndDraws (b : Byte) : (s.setDt b).rndDraws = s.rndDraws := rfl
@[simp] theorem setDt_config (b : Byte) : (s.setDt b).config = s.config := rfl
@[simp] theorem setDt_getV (b : Byte) (r : Reg) : (s.setDt b).getV r = s.getV r := rfl
@[simp] theorem setDt_readByte (b : Byte) (p : Addr) : (s.setDt b).readByte p = s.readByte p := rfl
@[simp] theorem setDt_cell (b : Byte) (c : Nat) : (s.setDt b).cell c = s.cell c := rfl
@[simp] theorem setDt_keyDown (b : Byte) (k : KeyIndex) : (s.setDt b).keyDown k = s.keyDown k := rfl
@[simp] theorem setDt_stackEntry (b : Byte) (k : Fin 16) : (s.setDt b).stackEntry k = s.stackEntry k := rfl
@[simp] theorem setDt_lowestKey (b : Byte) : (s.setDt b).lowestKey = s.lowestKey := rfl

/-! ### `setSt` -/

@[simp] theorem setSt_v (b : Byte) : (s.setSt b).v = s.v := rfl
@[simp] theorem setSt_i (b : Byte) : (s.setSt b).i = s.i := rfl
@[simp] theorem setSt_pc (b : Byte) : (s.setSt b).pc = s.pc := rfl
@[simp] theorem setSt_dt (b : Byte) : (s.setSt b).dt = s.dt := rfl
@[simp] theorem setSt_st (b : Byte) : (s.setSt b).st = b := rfl
@[simp] theorem setSt_stack (b : Byte) : (s.setSt b).stack = s.stack := rfl
@[simp] theorem setSt_sp (b : Byte) : (s.setSt b).sp = s.sp := rfl
@[simp] theorem setSt_mem (b : Byte) : (s.setSt b).mem = s.mem := rfl
@[simp] theorem setSt_fb (b : Byte) : (s.setSt b).fb = s.fb := rfl
@[simp] theorem setSt_dirty (b : Byte) : (s.setSt b).dirty = s.dirty := rfl
@[simp] theorem setSt_key (b : Byte) : (s.setSt b).key = s.key := rfl
@[simp] theorem setSt_fault (b : Byte) : (s.setSt b).fault = s.fault := rfl
@[simp] theorem setSt_rndDraws (b : Byte) : (s.setSt b).rndDraws = s.rndDraws := rfl
@[simp] theorem setSt_config (b : Byte) : (s.setSt b).config = s.config := rfl
@[simp] theorem setSt_getV (b : Byte) (r : Reg) : (s.setSt b).getV r = s.getV r := rfl
@[simp] theorem setSt_readByte (b : Byte) (p : Addr) : (s.setSt b).readByte p = s.readByte p := rfl
@[simp] theorem setSt_cell (b : Byte) (c : Nat) : (s.setSt b).cell c = s.cell c := rfl
@[simp] theorem setSt_keyDown (b : Byte) (k : KeyIndex) : (s.setSt b).keyDown k = s.keyDown k := rfl
@[simp] theorem setSt_stackEntry (b : Byte) (k : Fin 16) : (s.setSt b).stackEntry k = s.stackEntry k := rfl
@[simp] theorem setSt_lowestKey (b : Byte) : (s.setSt b).lowestKey = s.lowestKey := rfl

/-! ### `writeByte` -/

@[simp] theorem writeByte_v (a : Addr) (b : Byte) : (s.writeByte a b).v = s.v := rfl
@[simp] theorem writeByte_i (a : Addr) (b : Byte) : (s.writeByte a b).i = s.i := rfl
@[simp] theorem writeByte_pc (a : Addr) (b : Byte) : (s.writeByte a b).pc = s.pc := rfl
@[simp] theorem writeByte_dt (a : Addr) (b : Byte) : (s.writeByte a b).dt = s.dt := rfl
@[simp] theorem writeByte_st (a : Addr) (b : Byte) : (s.writeByte a b).st = s.st := rfl
@[simp] theorem writeByte_stack (a : Addr) (b : Byte) : (s.writeByte a b).stack = s.stack := rfl
@[simp] theorem writeByte_sp (a : Addr) (b : Byte) : (s.writeByte a b).sp = s.sp := rfl
@[simp] theorem writeByte_mem (a : Addr) (b : Byte) : (s.writeByte a b).mem = Memory.write s.config s.mem a.toNat b := rfl
@[simp] theorem writeByte_fb (a : Addr) (b : Byte) : (s.writeByte a b).fb = s.fb := rfl
@[simp] theorem writeByte_dirty (a : Addr) (b : Byte) : (s.writeByte a b).dirty = s.dirty := rfl
@[simp] theorem writeByte_key (a : Addr) (b : Byte) : (s.writeByte a b).key = s.key := rfl
@[simp] theorem writeByte_fault (a : Addr) (b : Byte) : (s.writeByte a b).fault = s.fault := rfl
@[simp] theorem writeByte_rndDraws (a : Addr) (b : Byte) : (s.writeByte a b).rndDraws = s.rndDraws := rfl
@[simp] theorem writeByte_config (a : Addr) (b : Byte) : (s.writeByte a b).config = s.config := rfl
@[simp] theorem writeByte_getV (a : Addr) (b : Byte) (r : Reg) : (s.writeByte a b).getV r = s.getV r := rfl
@[simp] theorem writeByte_cell (a : Addr) (b : Byte) (c : Nat) : (s.writeByte a b).cell c = s.cell c := rfl
@[simp] theorem writeByte_keyDown (a : Addr) (b : Byte) (k : KeyIndex) : (s.writeByte a b).keyDown k = s.keyDown k := rfl
@[simp] theorem writeByte_stackEntry (a : Addr) (b : Byte) (k : Fin 16) : (s.writeByte a b).stackEntry k = s.stackEntry k := rfl
@[simp] theorem writeByte_lowestKey (a : Addr) (b : Byte) : (s.writeByte a b).lowestKey = s.lowestKey := rfl

/-! ### `raise` -/

@[simp] theorem raise_v (f : EngineFault) : (s.raise f).v = s.v := rfl
@[simp] theorem raise_i (f : EngineFault) : (s.raise f).i = s.i := rfl
@[simp] theorem raise_pc (f : EngineFault) : (s.raise f).pc = s.pc := rfl
@[simp] theorem raise_dt (f : EngineFault) : (s.raise f).dt = s.dt := rfl
@[simp] theorem raise_st (f : EngineFault) : (s.raise f).st = s.st := rfl
@[simp] theorem raise_stack (f : EngineFault) : (s.raise f).stack = s.stack := rfl
@[simp] theorem raise_sp (f : EngineFault) : (s.raise f).sp = s.sp := rfl
@[simp] theorem raise_mem (f : EngineFault) : (s.raise f).mem = s.mem := rfl
@[simp] theorem raise_fb (f : EngineFault) : (s.raise f).fb = s.fb := rfl
@[simp] theorem raise_dirty (f : EngineFault) : (s.raise f).dirty = s.dirty := rfl
@[simp] theorem raise_key (f : EngineFault) : (s.raise f).key = s.key := rfl
@[simp] theorem raise_fault (f : EngineFault) : (s.raise f).fault = some f := rfl
@[simp] theorem raise_rndDraws (f : EngineFault) : (s.raise f).rndDraws = s.rndDraws := rfl
@[simp] theorem raise_config (f : EngineFault) : (s.raise f).config = s.config := rfl
@[simp] theorem raise_getV (f : EngineFault) (r : Reg) : (s.raise f).getV r = s.getV r := rfl
@[simp] theorem raise_readByte (f : EngineFault) (p : Addr) : (s.raise f).readByte p = s.readByte p := rfl
@[simp] theorem raise_cell (f : EngineFault) (c : Nat) : (s.raise f).cell c = s.cell c := rfl
@[simp] theorem raise_keyDown (f : EngineFault) (k : KeyIndex) : (s.raise f).keyDown k = s.keyDown k := rfl
@[simp] theorem raise_stackEntry (f : EngineFault) (k : Fin 16) : (s.raise f).stackEntry k = s.stackEntry k := rfl
@[simp] theorem raise_lowestKey (f : EngineFault) : (s.raise f).lowestKey = s.lowestKey := rfl

/-! ### `raiseUnknown` -/

@[simp] theorem raiseUnknown_v (w : Word) : (s.raiseUnknown w).v = s.v := rfl
@[simp] theorem raiseUnknown_i (w : Word) : (s.raiseUnknown w).i = s.i := rfl
@[simp] theorem raiseUnknown_pc (w : Word) : (s.raiseUnknown w).pc = s.pc := rfl
@[simp] theorem raiseUnknown_dt (w : Word) : (s.raiseUnknown w).dt = s.dt := rfl
@[simp] theorem raiseUnknown_st (w : Word) : (s.raiseUnknown w).st = s.st := rfl
@[simp] theorem raiseUnknown_stack (w : Word) : (s.raiseUnknown w).stack = s.stack := rfl
@[simp] theorem raiseUnknown_sp (w : Word) : (s.raiseUnknown w).sp = s.sp := rfl
@[simp] theorem raiseUnknown_mem (w : Word) : (s.raiseUnknown w).mem = s.mem := rfl
@[simp] theorem raiseUnknown_fb (w : Word) : (s.raiseUnknown w).fb = s.fb := rfl
@[simp] theorem raiseUnknown_dirty (w : Word) : (s.raiseUnknown w).dirty = s.dirty := rfl
@[simp] theorem raiseUnknown_key (w : Word) : (s.raiseUnknown w).key = s.key := rfl
@[simp] theorem raiseUnknown_fault (w : Word) : (s.raiseUnknown w).fault = some (.unknownOpcode w s.fetchAddress) := rfl
@[simp] theorem raiseUnknown_rndDraws (w : Word) : (s.raiseUnknown w).rndDraws = s.rndDraws := rfl
@[simp] theorem raiseUnknown_config (w : Word) : (s.raiseUnknown w).config = s.config := rfl
@[simp] theorem raiseUnknown_getV (w : Word) (r : Reg) : (s.raiseUnknown w).getV r = s.getV r := rfl
@[simp] theorem raiseUnknown_readByte (w : Word) (p : Addr) : (s.raiseUnknown w).readByte p = s.readByte p := rfl
@[simp] theorem raiseUnknown_cell (w : Word) (c : Nat) : (s.raiseUnknown w).cell c = s.cell c := rfl
@[simp] theorem raiseUnknown_keyDown (w : Word) (k : KeyIndex) : (s.raiseUnknown w).keyDown k = s.keyDown k := rfl
@[simp] theorem raiseUnknown_stackEntry (w : Word) (k : Fin 16) : (s.raiseUnknown w).stackEntry k = s.stackEntry k := rfl
@[simp] theorem raiseUnknown_lowestKey (w : Word) : (s.raiseUnknown w).lowestKey = s.lowestKey := rfl

/-! ### `setDisplay` -/

@[simp] theorem setDisplay_v (d : Display) : (s.setDisplay d).v = s.v := rfl
@[simp] theorem setDisplay_i (d : Display) : (s.setDisplay d).i = s.i := rfl
@[simp] theorem setDisplay_pc (d : Display) : (s.setDisplay d).pc = s.pc := rfl
@[simp] theorem setDisplay_dt (d : Display) : (s.setDisplay d).dt = s.dt := rfl
@[simp] theorem setDisplay_st (d : Display) : (s.setDisplay d).st = s.st := rfl
@[simp] theorem setDisplay_stack (d : Display) : (s.setDisplay d).stack = s.stack := rfl
@[simp] theorem setDisplay_sp (d : Display) : (s.setDisplay d).sp = s.sp := rfl
@[simp] theorem setDisplay_mem (d : Display) : (s.setDisplay d).mem = s.mem := rfl
@[simp] theorem setDisplay_fb (d : Display) : (s.setDisplay d).fb = d := rfl
@[simp] theorem setDisplay_dirty (d : Display) : (s.setDisplay d).dirty = true := rfl
@[simp] theorem setDisplay_key (d : Display) : (s.setDisplay d).key = s.key := rfl
@[simp] theorem setDisplay_fault (d : Display) : (s.setDisplay d).fault = s.fault := rfl
@[simp] theorem setDisplay_rndDraws (d : Display) : (s.setDisplay d).rndDraws = s.rndDraws := rfl
@[simp] theorem setDisplay_config (d : Display) : (s.setDisplay d).config = s.config := rfl
@[simp] theorem setDisplay_getV (d : Display) (r : Reg) : (s.setDisplay d).getV r = s.getV r := rfl
@[simp] theorem setDisplay_readByte (d : Display) (p : Addr) : (s.setDisplay d).readByte p = s.readByte p := rfl
@[simp] theorem setDisplay_cell (d : Display) (c : Nat) : (s.setDisplay d).cell c = Display.cell d c := rfl
@[simp] theorem setDisplay_keyDown (d : Display) (k : KeyIndex) : (s.setDisplay d).keyDown k = s.keyDown k := rfl
@[simp] theorem setDisplay_stackEntry (d : Display) (k : Fin 16) : (s.setDisplay d).stackEntry k = s.stackEntry k := rfl
@[simp] theorem setDisplay_lowestKey (d : Display) : (s.setDisplay d).lowestKey = s.lowestKey := rfl

/-! ### `tick` -/

@[simp] theorem tick_v : s.tick.v = s.v := rfl
@[simp] theorem tick_i : s.tick.i = s.i := rfl
@[simp] theorem tick_pc : s.tick.pc = s.pc := rfl
@[simp] theorem tick_dt : s.tick.dt = countDown s.dt := rfl
@[simp] theorem tick_st : s.tick.st = countDown s.st := rfl
@[simp] theorem tick_stack : s.tick.stack = s.stack := rfl
@[simp] theorem tick_sp : s.tick.sp = s.sp := rfl
@[simp] theorem tick_mem : s.tick.mem = s.mem := rfl
@[simp] theorem tick_fb : s.tick.fb = s.fb := rfl
@[simp] theorem tick_dirty : s.tick.dirty = s.dirty := rfl
@[simp] theorem tick_key : s.tick.key = s.key := rfl
@[simp] theorem tick_fault : s.tick.fault = s.fault := rfl
@[simp] theorem tick_rndDraws : s.tick.rndDraws = s.rndDraws := rfl
@[simp] theorem tick_config : s.tick.config = s.config := rfl
@[simp] theorem tick_getV (r : Reg) : s.tick.getV r = s.getV r := rfl
@[simp] theorem tick_readByte (p : Addr) : s.tick.readByte p = s.readByte p := rfl
@[simp] theorem tick_cell (c : Nat) : s.tick.cell c = s.cell c := rfl
@[simp] theorem tick_keyDown (k : KeyIndex) : s.tick.keyDown k = s.keyDown k := rfl
@[simp] theorem tick_stackEntry (k : Fin 16) : s.tick.stackEntry k = s.stackEntry k := rfl
@[simp] theorem tick_lowestKey : s.tick.lowestKey = s.lowestKey := rfl

/-! ### `beginStep` -/

@[simp] theorem beginStep_v : s.beginStep.v = s.v := rfl
@[simp] theorem beginStep_i : s.beginStep.i = s.i := rfl
@[simp] theorem beginStep_pc : s.beginStep.pc = s.pc := rfl
@[simp] theorem beginStep_dt : s.beginStep.dt = s.dt := rfl
@[simp] theorem beginStep_st : s.beginStep.st = s.st := rfl
@[simp] theorem beginStep_stack : s.beginStep.stack = s.stack := rfl
@[simp] theorem beginStep_sp : s.beginStep.sp = s.sp := rfl
@[simp] theorem beginStep_mem : s.beginStep.mem = s.mem := rfl
@[simp] theorem beginStep_fb : s.beginStep.fb = s.fb := rfl
@[simp] theorem beginStep_dirty : s.beginStep.dirty = false := rfl
@[simp] theorem beginStep_key : s.beginStep.key = s.key := rfl
@[simp] theorem beginStep_fault : s.beginStep.fault = none := rfl
@[simp] theorem beginStep_rndDraws : s.beginStep.rndDraws = s.rndDraws := rfl
@[simp] theorem beginStep_config : s.beginStep.config = s.config := rfl
@[simp] theorem beginStep_getV (r : Reg) : s.beginStep.getV r = s.getV r := rfl
@[simp] theorem beginStep_readByte (p : Addr) : s.beginStep.readByte p = s.readByte p := rfl
@[simp] theorem beginStep_cell (c : Nat) : s.beginStep.cell c = s.cell c := rfl
@[simp] theorem beginStep_keyDown (k : KeyIndex) : s.beginStep.keyDown k = s.keyDown k := rfl
@[simp] theorem beginStep_stackEntry (k : Fin 16) : s.beginStep.stackEntry k = s.stackEntry k := rfl
@[simp] theorem beginStep_lowestKey : s.beginStep.lowestKey = s.lowestKey := rfl

/-! ### `advance` -/

@[simp] theorem advance_v : s.advance.v = s.v := rfl
@[simp] theorem advance_i : s.advance.i = s.i := rfl
@[simp] theorem advance_pc : s.advance.pc = s.pc + 2#12 := rfl
@[simp] theorem advance_dt : s.advance.dt = s.dt := rfl
@[simp] theorem advance_st : s.advance.st = s.st := rfl
@[simp] theorem advance_stack : s.advance.stack = s.stack := rfl
@[simp] theorem advance_sp : s.advance.sp = s.sp := rfl
@[simp] theorem advance_mem : s.advance.mem = s.mem := rfl
@[simp] theorem advance_fb : s.advance.fb = s.fb := rfl
@[simp] theorem advance_dirty : s.advance.dirty = s.dirty := rfl
@[simp] theorem advance_key : s.advance.key = s.key := rfl
@[simp] theorem advance_fault : s.advance.fault = s.fault := rfl
@[simp] theorem advance_rndDraws : s.advance.rndDraws = s.rndDraws := rfl
@[simp] theorem advance_config : s.advance.config = s.config := rfl
@[simp] theorem advance_getV (r : Reg) : s.advance.getV r = s.getV r := rfl
@[simp] theorem advance_readByte (p : Addr) : s.advance.readByte p = s.readByte p := rfl
@[simp] theorem advance_cell (c : Nat) : s.advance.cell c = s.cell c := rfl
@[simp] theorem advance_keyDown (k : KeyIndex) : s.advance.keyDown k = s.keyDown k := rfl
@[simp] theorem advance_stackEntry (k : Fin 16) : s.advance.stackEntry k = s.stackEntry k := rfl
@[simp] theorem advance_lowestKey : s.advance.lowestKey = s.lowestKey := rfl

/-! ### `takeRnd` -/

@[simp] theorem takeRnd_v : s.takeRnd.v = s.v := rfl
@[simp] theorem takeRnd_i : s.takeRnd.i = s.i := rfl
@[simp] theorem takeRnd_pc : s.takeRnd.pc = s.pc := rfl
@[simp] theorem takeRnd_dt : s.takeRnd.dt = s.dt := rfl
@[simp] theorem takeRnd_st : s.takeRnd.st = s.st := rfl
@[simp] theorem takeRnd_stack : s.takeRnd.stack = s.stack := rfl
@[simp] theorem takeRnd_sp : s.takeRnd.sp = s.sp := rfl
@[simp] theorem takeRnd_mem : s.takeRnd.mem = s.mem := rfl
@[simp] theorem takeRnd_fb : s.takeRnd.fb = s.fb := rfl
@[simp] theorem takeRnd_dirty : s.takeRnd.dirty = s.dirty := rfl
@[simp] theorem takeRnd_key : s.takeRnd.key = s.key := rfl
@[simp] theorem takeRnd_fault : s.takeRnd.fault = s.fault := rfl
@[simp] theorem takeRnd_rndDraws : s.takeRnd.rndDraws = s.rndDraws + 1 := rfl
@[simp] theorem takeRnd_config : s.takeRnd.config = s.config := rfl
@[simp] theorem takeRnd_getV (r : Reg) : s.takeRnd.getV r = s.getV r := rfl
@[simp] theorem takeRnd_readByte (p : Addr) : s.takeRnd.readByte p = s.readByte p := rfl
@[simp] theorem takeRnd_cell (c : Nat) : s.takeRnd.cell c = s.cell c := rfl
@[simp] theorem takeRnd_keyDown (k : KeyIndex) : s.takeRnd.keyDown k = s.keyDown k := rfl
@[simp] theorem takeRnd_stackEntry (k : Fin 16) : s.takeRnd.stackEntry k = s.stackEntry k := rfl
@[simp] theorem takeRnd_lowestKey : s.takeRnd.lowestKey = s.lowestKey := rfl

/-! ### `enterExecute` -/

@[simp] theorem enterExecute_v : s.enterExecute.v = s.v := rfl
@[simp] theorem enterExecute_i : s.enterExecute.i = s.i := rfl
@[simp] theorem enterExecute_pc : s.enterExecute.pc = s.pc + 2#12 := rfl
@[simp] theorem enterExecute_dt : s.enterExecute.dt = s.dt := rfl
@[simp] theorem enterExecute_st : s.enterExecute.st = s.st := rfl
@[simp] theorem enterExecute_stack : s.enterExecute.stack = s.stack := rfl
@[simp] theorem enterExecute_sp : s.enterExecute.sp = s.sp := rfl
@[simp] theorem enterExecute_mem : s.enterExecute.mem = s.mem := rfl
@[simp] theorem enterExecute_fb : s.enterExecute.fb = s.fb := rfl
@[simp] theorem enterExecute_dirty : s.enterExecute.dirty = false := rfl
@[simp] theorem enterExecute_key : s.enterExecute.key = s.key := rfl
@[simp] theorem enterExecute_fault : s.enterExecute.fault = none := rfl
@[simp] theorem enterExecute_rndDraws : s.enterExecute.rndDraws = s.rndDraws := rfl
@[simp] theorem enterExecute_config : s.enterExecute.config = s.config := rfl
@[simp] theorem enterExecute_getV (r : Reg) : s.enterExecute.getV r = s.getV r := rfl
@[simp] theorem enterExecute_readByte (p : Addr) : s.enterExecute.readByte p = s.readByte p := rfl
@[simp] theorem enterExecute_cell (c : Nat) : s.enterExecute.cell c = s.cell c := rfl
@[simp] theorem enterExecute_keyDown (k : KeyIndex) : s.enterExecute.keyDown k = s.keyDown k := rfl
@[simp] theorem enterExecute_stackEntry (k : Fin 16) : s.enterExecute.stackEntry k = s.stackEntry k := rfl
@[simp] theorem enterExecute_lowestKey : s.enterExecute.lowestKey = s.lowestKey := rfl

/-! ### `push` and `pop` -/

@[simp] theorem push_v (a : Addr) (h : s.sp.val < 16) : (s.push a h).v = s.v := rfl
@[simp] theorem pop_v (h : 0 < s.sp.val) : (s.pop h).2.v = s.v := rfl
@[simp] theorem push_i (a : Addr) (h : s.sp.val < 16) : (s.push a h).i = s.i := rfl
@[simp] theorem pop_i (h : 0 < s.sp.val) : (s.pop h).2.i = s.i := rfl
@[simp] theorem push_pc (a : Addr) (h : s.sp.val < 16) : (s.push a h).pc = s.pc := rfl
@[simp] theorem pop_pc (h : 0 < s.sp.val) : (s.pop h).2.pc = s.pc := rfl
@[simp] theorem push_dt (a : Addr) (h : s.sp.val < 16) : (s.push a h).dt = s.dt := rfl
@[simp] theorem pop_dt (h : 0 < s.sp.val) : (s.pop h).2.dt = s.dt := rfl
@[simp] theorem push_st (a : Addr) (h : s.sp.val < 16) : (s.push a h).st = s.st := rfl
@[simp] theorem pop_st (h : 0 < s.sp.val) : (s.pop h).2.st = s.st := rfl
@[simp] theorem push_mem (a : Addr) (h : s.sp.val < 16) : (s.push a h).mem = s.mem := rfl
@[simp] theorem pop_mem (h : 0 < s.sp.val) : (s.pop h).2.mem = s.mem := rfl
@[simp] theorem push_fb (a : Addr) (h : s.sp.val < 16) : (s.push a h).fb = s.fb := rfl
@[simp] theorem pop_fb (h : 0 < s.sp.val) : (s.pop h).2.fb = s.fb := rfl
@[simp] theorem push_dirty (a : Addr) (h : s.sp.val < 16) : (s.push a h).dirty = s.dirty := rfl
@[simp] theorem pop_dirty (h : 0 < s.sp.val) : (s.pop h).2.dirty = s.dirty := rfl
@[simp] theorem push_key (a : Addr) (h : s.sp.val < 16) : (s.push a h).key = s.key := rfl
@[simp] theorem pop_key (h : 0 < s.sp.val) : (s.pop h).2.key = s.key := rfl
@[simp] theorem push_fault (a : Addr) (h : s.sp.val < 16) : (s.push a h).fault = s.fault := rfl
@[simp] theorem pop_fault (h : 0 < s.sp.val) : (s.pop h).2.fault = s.fault := rfl
@[simp] theorem push_rndDraws (a : Addr) (h : s.sp.val < 16) : (s.push a h).rndDraws = s.rndDraws := rfl
@[simp] theorem pop_rndDraws (h : 0 < s.sp.val) : (s.pop h).2.rndDraws = s.rndDraws := rfl
@[simp] theorem push_config (a : Addr) (h : s.sp.val < 16) : (s.push a h).config = s.config := rfl
@[simp] theorem pop_config (h : 0 < s.sp.val) : (s.pop h).2.config = s.config := rfl
@[simp] theorem push_sp (a : Addr) (h : s.sp.val < 16) : (s.push a h).sp.val = s.sp.val + 1 := rfl
@[simp] theorem push_stack (a : Addr) (h : s.sp.val < 16) : (s.push a h).stack = s.stack.set s.sp.val a := rfl
@[simp] theorem pop_sp (h : 0 < s.sp.val) : (s.pop h).2.sp.val = s.sp.val - 1 := rfl
@[simp] theorem pop_stack (h : 0 < s.sp.val) : (s.pop h).2.stack = s.stack := rfl
@[simp] theorem pop_fst (h : 0 < s.sp.val) : (s.pop h).1 = s.stackEntry ⟨s.sp.val - 1, by omega⟩ := rfl
@[simp] theorem push_getV (a : Addr) (h : s.sp.val < 16) (r : Reg) : (s.push a h).getV r = s.getV r := rfl
@[simp] theorem pop_getV (h : 0 < s.sp.val) (r : Reg) : (s.pop h).2.getV r = s.getV r := rfl
@[simp] theorem push_readByte (a : Addr) (h : s.sp.val < 16) (p : Addr) : (s.push a h).readByte p = s.readByte p := rfl
@[simp] theorem pop_readByte (h : 0 < s.sp.val) (p : Addr) : (s.pop h).2.readByte p = s.readByte p := rfl

/-! ### Registers read back -/

/-- A register read after a register write. -/
theorem setV_getV (x r : Reg) (b : Byte) : (s.setV x b).getV r = if r = x then b else s.getV r := by
  by_cases h : r = x
  · subst h; simp [State.getV, State.setV]
  · have h' : ¬ x.val = r.val := fun e => h (Fin.ext e.symm)
    simp [State.getV, State.setV, h, h']

@[simp] theorem setV_getV_same (x : Reg) (b : Byte) : (s.setV x b).getV x = b := by simp [setV_getV]

@[simp] theorem setV_getV_other (x r : Reg) (b : Byte) (h : r ≠ x) : (s.setV x b).getV r = s.getV r := by
  simp [setV_getV, h]

/-- The flag written after the result is what VF holds, whatever the destination (R103). -/
@[simp] theorem setVThenFlag_getV_flag (x : Reg) (result flag : Byte) : (s.setVThenFlag x result flag).getV vF = flag := by
  simp [State.setVThenFlag]

/-- A destination other than VF keeps the result. -/
theorem setVThenFlag_getV (x r : Reg) (result flag : Byte) :
    (s.setVThenFlag x result flag).getV r = if r = vF then flag else if r = x then result else s.getV r := by
  simp only [State.setVThenFlag, setV_getV]

@[simp] theorem setVThenFlag_readByte (x : Reg) (result flag : Byte) (p : Addr) :
    (s.setVThenFlag x result flag).readByte p = s.readByte p := rfl

@[simp] theorem setVThenFlag_i (x : Reg) (result flag : Byte) : (s.setVThenFlag x result flag).i = s.i := rfl
@[simp] theorem setVThenFlag_pc (x : Reg) (result flag : Byte) : (s.setVThenFlag x result flag).pc = s.pc := rfl
@[simp] theorem setVThenFlag_dt (x : Reg) (result flag : Byte) : (s.setVThenFlag x result flag).dt = s.dt := rfl
@[simp] theorem setVThenFlag_st (x : Reg) (result flag : Byte) : (s.setVThenFlag x result flag).st = s.st := rfl
@[simp] theorem setVThenFlag_stack (x : Reg) (result flag : Byte) : (s.setVThenFlag x result flag).stack = s.stack := rfl
@[simp] theorem setVThenFlag_sp (x : Reg) (result flag : Byte) : (s.setVThenFlag x result flag).sp = s.sp := rfl
@[simp] theorem setVThenFlag_mem (x : Reg) (result flag : Byte) : (s.setVThenFlag x result flag).mem = s.mem := rfl
@[simp] theorem setVThenFlag_fb (x : Reg) (result flag : Byte) : (s.setVThenFlag x result flag).fb = s.fb := rfl
@[simp] theorem setVThenFlag_dirty (x : Reg) (result flag : Byte) : (s.setVThenFlag x result flag).dirty = s.dirty := rfl
@[simp] theorem setVThenFlag_key (x : Reg) (result flag : Byte) : (s.setVThenFlag x result flag).key = s.key := rfl
@[simp] theorem setVThenFlag_fault (x : Reg) (result flag : Byte) : (s.setVThenFlag x result flag).fault = s.fault := rfl
@[simp] theorem setVThenFlag_rndDraws (x : Reg) (result flag : Byte) : (s.setVThenFlag x result flag).rndDraws = s.rndDraws := rfl
@[simp] theorem setVThenFlag_config (x : Reg) (result flag : Byte) : (s.setVThenFlag x result flag).config = s.config := rfl

/-! ### `skipIf` -/

@[simp] theorem skipIf_pc (b : Bool) : (s.skipIf b).pc = if b then s.pc + 2#12 else s.pc := by cases b <;> rfl
@[simp] theorem skipIf_v (b : Bool) : (s.skipIf b).v = s.v := by cases b <;> rfl
@[simp] theorem skipIf_i (b : Bool) : (s.skipIf b).i = s.i := by cases b <;> rfl
@[simp] theorem skipIf_dt (b : Bool) : (s.skipIf b).dt = s.dt := by cases b <;> rfl
@[simp] theorem skipIf_st (b : Bool) : (s.skipIf b).st = s.st := by cases b <;> rfl
@[simp] theorem skipIf_stack (b : Bool) : (s.skipIf b).stack = s.stack := by cases b <;> rfl
@[simp] theorem skipIf_sp (b : Bool) : (s.skipIf b).sp = s.sp := by cases b <;> rfl
@[simp] theorem skipIf_mem (b : Bool) : (s.skipIf b).mem = s.mem := by cases b <;> rfl
@[simp] theorem skipIf_fb (b : Bool) : (s.skipIf b).fb = s.fb := by cases b <;> rfl
@[simp] theorem skipIf_dirty (b : Bool) : (s.skipIf b).dirty = s.dirty := by cases b <;> rfl
@[simp] theorem skipIf_key (b : Bool) : (s.skipIf b).key = s.key := by cases b <;> rfl
@[simp] theorem skipIf_fault (b : Bool) : (s.skipIf b).fault = s.fault := by cases b <;> rfl
@[simp] theorem skipIf_rndDraws (b : Bool) : (s.skipIf b).rndDraws = s.rndDraws := by cases b <;> rfl
@[simp] theorem skipIf_config (b : Bool) : (s.skipIf b).config = s.config := by cases b <;> rfl
@[simp] theorem skipIf_getV (b : Bool) (r : Reg) : (s.skipIf b).getV r = s.getV r := by cases b <;> rfl
@[simp] theorem skipIf_readByte (b : Bool) (p : Addr) : (s.skipIf b).readByte p = s.readByte p := by cases b <;> rfl

/-! ### `setKey` -/

@[simp] theorem setKey_v (k : Nat) (b : Bool) : (s.setKey k b).v = s.v := by unfold State.setKey; split <;> rfl
@[simp] theorem setKey_i (k : Nat) (b : Bool) : (s.setKey k b).i = s.i := by unfold State.setKey; split <;> rfl
@[simp] theorem setKey_pc (k : Nat) (b : Bool) : (s.setKey k b).pc = s.pc := by unfold State.setKey; split <;> rfl
@[simp] theorem setKey_dt (k : Nat) (b : Bool) : (s.setKey k b).dt = s.dt := by unfold State.setKey; split <;> rfl
@[simp] theorem setKey_st (k : Nat) (b : Bool) : (s.setKey k b).st = s.st := by unfold State.setKey; split <;> rfl
@[simp] theorem setKey_stack (k : Nat) (b : Bool) : (s.setKey k b).stack = s.stack := by unfold State.setKey; split <;> rfl
@[simp] theorem setKey_sp (k : Nat) (b : Bool) : (s.setKey k b).sp = s.sp := by unfold State.setKey; split <;> rfl
@[simp] theorem setKey_mem (k : Nat) (b : Bool) : (s.setKey k b).mem = s.mem := by unfold State.setKey; split <;> rfl
@[simp] theorem setKey_fb (k : Nat) (b : Bool) : (s.setKey k b).fb = s.fb := by unfold State.setKey; split <;> rfl
@[simp] theorem setKey_dirty (k : Nat) (b : Bool) : (s.setKey k b).dirty = s.dirty := by unfold State.setKey; split <;> rfl
@[simp] theorem setKey_fault (k : Nat) (b : Bool) : (s.setKey k b).fault = s.fault := by unfold State.setKey; split <;> rfl
@[simp] theorem setKey_rndDraws (k : Nat) (b : Bool) : (s.setKey k b).rndDraws = s.rndDraws := by unfold State.setKey; split <;> rfl
@[simp] theorem setKey_config (k : Nat) (b : Bool) : (s.setKey k b).config = s.config := by unfold State.setKey; split <;> rfl

/-- An index above 15 is a no-op (R154). -/
theorem setKey_out_of_range (k : Nat) (b : Bool) (h : 16 ≤ k) : s.setKey k b = s := by
  simp [State.setKey, Nat.not_lt.mpr h]

/-- One key flag is set, the others stay (R154). -/
theorem setKey_keyDown (k : Nat) (b : Bool) (h : k < 16) (j : KeyIndex) :
    (s.setKey k b).keyDown j = if j.val = k then b else s.keyDown j := by
  simp only [State.setKey, h, dite_true, State.keyDown, Vector.getElem_set, eq_comm]

end Sys2Proof.Machine
end

