-- ==== Sys2Proof/Laws/Memory.lean ====
section
/-! SUPPORT. The laws of memory: a read after a write, for every list of cells whether canonical or not, and that a write
keeps the canonical form (spec 20_memory.md R36, R39, R41; log 26). -/

namespace Sys2Proof.Machine

variable (c : Config)

/-! ### Read after write -/

theorem Memory.read_erase (m : Memory) (a p : Nat) :
    Memory.read c (Memory.erase a m) p = if p = a then unlistedByte c a else Memory.read c m p := by
  induction m with
  | nil => by_cases h : p = a <;> simp [Memory.erase, Memory.read, h]
  | cons cell m ih =>
    obtain ⟨k, u⟩ := cell
    simp only [Memory.erase] at ih ⊢
    by_cases hk : k = a
    · subst hk
      simp only [List.filter_cons, bne_self_eq_false, Bool.false_eq_true, if_false, ih, Memory.read]
      by_cases h : p = k
      · simp [h]
      · simp [h, Ne.symm h]
    · have hk' : (k != a) = true := by simpa using hk
      simp only [List.filter_cons, hk', if_true, Memory.read, ih]
      by_cases h : k = p
      · subst h; simp [hk]
      · simp [h]

theorem Memory.read_insert (m : Memory) (a p : Nat) (b : Byte) (h : ∀ cell ∈ m, cell.1 ≠ a) :
    Memory.read c (Memory.insert a b m) p = if p = a then b else Memory.read c m p := by
  induction m with
  | nil =>
    by_cases hp : p = a
    · simp [Memory.insert, Memory.read, hp]
    · simp [Memory.insert, Memory.read, hp, Ne.symm hp]
  | cons cell m ih =>
    obtain ⟨k, u⟩ := cell
    have hk : k ≠ a := h (k, u) (by simp)
    have ih := ih (fun x hx => h x (by simp [hx]))
    simp only [Memory.insert]
    split
    · by_cases hp : p = a
      · simp [Memory.read, hp]
      · simp [Memory.read, hp, Ne.symm hp]
    · simp only [Memory.read, ih]
      by_cases hp : p = a
      · subst hp; simp [hk]
      · simp [hp]

theorem Memory.mem_erase_ne (m : Memory) (a : Nat) : ∀ cell ∈ Memory.erase a m, cell.1 ≠ a := by
  intro cell h
  simpa using (List.mem_filter.mp h).2

/-- One byte changes, every other byte stays. -/
theorem Memory.read_write (m : Memory) (a p : Nat) (b : Byte) :
    Memory.read c (Memory.write c m a b) p = if p = a then b else Memory.read c m p := by
  unfold Memory.write
  split
  · next h => simp only [Memory.read_erase, h]
  · rw [Memory.read_insert c _ _ _ _ (Memory.mem_erase_ne m a), Memory.read_erase]
    by_cases hp : p = a <;> simp [hp]

/-! ### The canonical form -/

/-- An entry that a canonical memory may list. -/
def Memory.entryOk (cell : Host.Cell) : Bool :=
  decide (cell.1 < 4096) && decide (cell.2 ≠ unlistedByte c cell.1)

theorem Memory.wf_iff (m : Memory) : Memory.wf c m = true ↔
    (m.map Prod.fst).Pairwise (· < ·) ∧ ∀ cell ∈ m, Memory.entryOk c cell = true := by
  have rising : ∀ (m : Memory) (lo : Option Nat), Memory.risingFrom lo m = true ↔
      (m.map Prod.fst).Pairwise (· < ·) ∧ ∀ l, lo = some l → ∀ k ∈ m.map Prod.fst, l < k := by
    intro m
    induction m with
    | nil => intro lo; simp [Memory.risingFrom]
    | cons cell m ih =>
      obtain ⟨k, u⟩ := cell
      intro lo
      cases lo with
      | none => simp [Memory.risingFrom, ih, and_comm]
      | some l =>
        simp only [Memory.risingFrom, Bool.and_eq_true, decide_eq_true_eq, ih, List.map_cons, List.pairwise_cons,
          Option.some.injEq, forall_eq', List.mem_cons, forall_eq_or_imp]
        constructor
        · rintro ⟨hl, hp, hk⟩
          exact ⟨⟨hk, hp⟩, hl, fun a ha => lt_trans hl (hk a ha)⟩
        · rintro ⟨⟨hk, hp⟩, hl, -⟩
          exact ⟨hl, hp, hk⟩
  unfold Memory.wf
  rw [Bool.and_eq_true, rising m none, List.all_eq_true]
  simp [Memory.entryOk]

/-- Reset memory, which lists nothing, is canonical. -/
theorem Memory.wf_nil : Memory.wf c [] = true := rfl

theorem Memory.mem_insert (m : Memory) (a : Nat) (b : Byte) (cell : Host.Cell) :
    cell ∈ Memory.insert a b m ↔ cell = (a, b) ∨ cell ∈ m := by
  induction m with
  | nil => simp [Memory.insert]
  | cons q m ih =>
    obtain ⟨k, u⟩ := q
    simp only [Memory.insert]
    split
    · simp
    · simp [ih]; tauto

theorem Memory.pairwise_insert (m : Memory) (a : Nat) (b : Byte) (hm : (m.map Prod.fst).Pairwise (· < ·))
    (h : ∀ cell ∈ m, cell.1 ≠ a) : ((Memory.insert a b m).map Prod.fst).Pairwise (· < ·) := by
  induction m with
  | nil => simp [Memory.insert]
  | cons q m ih =>
    obtain ⟨k, u⟩ := q
    simp only [List.map_cons, List.pairwise_cons] at hm
    have hk : k ≠ a := h (k, u) (by simp)
    simp only [Memory.insert]
    split
    · next hlt =>
      simp only [List.map_cons, List.pairwise_cons, List.mem_cons, forall_eq_or_imp]
      exact ⟨⟨hlt, fun x hx => lt_trans hlt (hm.1 x hx)⟩, hm.1, hm.2⟩
    · next hge =>
      simp only [List.map_cons, List.pairwise_cons]
      refine ⟨?_, ih hm.2 (fun x hx => h x (by simp [hx]))⟩
      intro x hx
      obtain ⟨cell, hc, rfl⟩ := List.mem_map.mp hx
      rcases (Memory.mem_insert m a b cell).mp hc with rfl | hc
      · show k < a; omega
      · exact hm.1 _ (List.mem_map_of_mem hc)

/-- A write to an address below 4096 keeps the canonical form. -/
theorem Memory.wf_write (m : Memory) (a : Nat) (b : Byte) (ha : a < 4096) (hm : Memory.wf c m = true) :
    Memory.wf c (Memory.write c m a b) = true := by
  rw [Memory.wf_iff] at hm ⊢
  obtain ⟨hp, he⟩ := hm
  have hp' : ((Memory.erase a m).map Prod.fst).Pairwise (· < ·) :=
    hp.sublist (List.Sublist.map _ List.filter_sublist)
  have he' : ∀ cell ∈ Memory.erase a m, Memory.entryOk c cell = true :=
    fun cell hc => he cell (List.mem_filter.mp hc).1
  unfold Memory.write
  split
  · exact ⟨hp', he'⟩
  · next hb =>
    refine ⟨Memory.pairwise_insert _ a b hp' (Memory.mem_erase_ne m a), ?_⟩
    intro cell hc
    rcases (Memory.mem_insert _ a b cell).mp hc with rfl | hc
    · simp [Memory.entryOk, ha, hb]
    · exact he' cell hc

end Sys2Proof.Machine
end

