-- ==== Sys2Proof/Laws/Ops.lean ====
section
/-! SUPPORT. One law per shared operation: byte stores and store sequences, register sequences, the key scan, the timer
count, the fetch, and that each of them keeps the invariant. -/

namespace Sys2Proof.Machine

variable (s : State)

/-! ### One byte store (R36, R39) -/

theorem writeByte_readByte (a p : Addr) (b : Byte) :
    (s.writeByte a b).readByte p = if p = a then b else s.readByte p := by
  simp only [State.readByte, State.writeByte, Memory.read_write, BitVec.toNat_inj]

@[simp] theorem writeByte_readByte_same (a : Addr) (b : Byte) : (s.writeByte a b).readByte a = b := by
  simp [writeByte_readByte]

@[simp] theorem writeByte_readByte_other (a p : Addr) (b : Byte) (h : p ≠ a) :
    (s.writeByte a b).readByte p = s.readByte p := by simp [writeByte_readByte, h]

theorem writeByte_wf (a : Addr) (b : Byte) (h : s.wf) : (s.writeByte a b).wf :=
  Memory.wf_write s.config s.mem a.toNat b a.isLt h

/-! ### Sequences of byte stores -/

/-- A sequence of stores changes memory and nothing else. -/
theorem writeBytes_eq (cells : List (Addr × Byte)) :
    s.writeBytes cells = { s with mem := (s.writeBytes cells).mem } := by
  unfold State.writeBytes
  induction cells generalizing s with
  | nil => rfl
  | cons q cells ih => rw [List.foldl_cons, ih]; rfl

/-- A byte outside the stored addresses is unchanged. -/
theorem writeBytes_readByte_other (cells : List (Addr × Byte)) (p : Addr) (h : p ∉ cells.map Prod.fst) :
    (s.writeBytes cells).readByte p = s.readByte p := by
  unfold State.writeBytes
  induction cells generalizing s with
  | nil => rfl
  | cons q cells ih =>
    simp only [List.map_cons, List.mem_cons, not_or] at h
    rw [List.foldl_cons, ih _ h.2, writeByte_readByte_other _ _ _ _ h.1]

/-- Where the addresses are distinct, each stored byte is read back. -/
theorem writeBytes_readByte_mem (cells : List (Addr × Byte)) (p : Addr) (b : Byte)
    (hd : (cells.map Prod.fst).Nodup) (h : (p, b) ∈ cells) : (s.writeBytes cells).readByte p = b := by
  induction cells generalizing s with
  | nil => simp at h
  | cons q cells ih =>
    simp only [List.map_cons, List.nodup_cons] at hd
    rcases List.mem_cons.mp h with rfl | h
    · exact (writeBytes_readByte_other (s.writeByte p b) cells p hd.1).trans (writeByte_readByte_same s p b)
    · exact ih (s.writeByte q.1 q.2) hd.2 h

theorem writeBytes_wf (cells : List (Addr × Byte)) (h : s.wf) : (s.writeBytes cells).wf := by
  unfold State.writeBytes
  induction cells generalizing s with
  | nil => exact h
  | cons q cells ih => exact ih _ (writeByte_wf s q.1 q.2 h)

@[simp] theorem writeBytes_v (l : List (Addr × Byte)) : (s.writeBytes l).v = s.v := by rw [writeBytes_eq]
@[simp] theorem writeBytes_i (l : List (Addr × Byte)) : (s.writeBytes l).i = s.i := by rw [writeBytes_eq]
@[simp] theorem writeBytes_pc (l : List (Addr × Byte)) : (s.writeBytes l).pc = s.pc := by rw [writeBytes_eq]
@[simp] theorem writeBytes_dt (l : List (Addr × Byte)) : (s.writeBytes l).dt = s.dt := by rw [writeBytes_eq]
@[simp] theorem writeBytes_st (l : List (Addr × Byte)) : (s.writeBytes l).st = s.st := by rw [writeBytes_eq]
@[simp] theorem writeBytes_stack (l : List (Addr × Byte)) : (s.writeBytes l).stack = s.stack := by rw [writeBytes_eq]
@[simp] theorem writeBytes_sp (l : List (Addr × Byte)) : (s.writeBytes l).sp = s.sp := by rw [writeBytes_eq]
@[simp] theorem writeBytes_fb (l : List (Addr × Byte)) : (s.writeBytes l).fb = s.fb := by rw [writeBytes_eq]
@[simp] theorem writeBytes_dirty (l : List (Addr × Byte)) : (s.writeBytes l).dirty = s.dirty := by rw [writeBytes_eq]
@[simp] theorem writeBytes_key (l : List (Addr × Byte)) : (s.writeBytes l).key = s.key := by rw [writeBytes_eq]
@[simp] theorem writeBytes_fault (l : List (Addr × Byte)) : (s.writeBytes l).fault = s.fault := by rw [writeBytes_eq]
@[simp] theorem writeBytes_rndDraws (l : List (Addr × Byte)) : (s.writeBytes l).rndDraws = s.rndDraws := by
  rw [writeBytes_eq]
@[simp] theorem writeBytes_config (l : List (Addr × Byte)) : (s.writeBytes l).config = s.config := by rw [writeBytes_eq]
@[simp] theorem writeBytes_getV (l : List (Addr × Byte)) (r : Reg) : (s.writeBytes l).getV r = s.getV r := by
  simp [State.getV]

/-! ### Sequences of register loads -/

/-- A sequence of register loads changes registers and nothing else. -/
theorem setRegs_eq (regs : List (Reg × Byte)) : s.setRegs regs = { s with v := (s.setRegs regs).v } := by
  unfold State.setRegs
  induction regs generalizing s with
  | nil => rfl
  | cons q regs ih => rw [List.foldl_cons, ih]; rfl

theorem setRegs_getV_other (regs : List (Reg × Byte)) (r : Reg) (h : r ∉ regs.map Prod.fst) :
    (s.setRegs regs).getV r = s.getV r := by
  unfold State.setRegs
  induction regs generalizing s with
  | nil => rfl
  | cons q regs ih =>
    simp only [List.map_cons, List.mem_cons, not_or] at h
    rw [List.foldl_cons, ih _ h.2, setV_getV_other _ _ _ _ h.1]

theorem setRegs_getV_mem (regs : List (Reg × Byte)) (r : Reg) (b : Byte) (hd : (regs.map Prod.fst).Nodup)
    (h : (r, b) ∈ regs) : (s.setRegs regs).getV r = b := by
  induction regs generalizing s with
  | nil => simp at h
  | cons q regs ih =>
    simp only [List.map_cons, List.nodup_cons] at hd
    rcases List.mem_cons.mp h with rfl | h
    · exact (setRegs_getV_other (s.setV r b) regs r hd.1).trans (setV_getV_same s r b)
    · exact ih (s.setV q.1 q.2) hd.2 h

@[simp] theorem setRegs_i (l : List (Reg × Byte)) : (s.setRegs l).i = s.i := by rw [setRegs_eq]
@[simp] theorem setRegs_pc (l : List (Reg × Byte)) : (s.setRegs l).pc = s.pc := by rw [setRegs_eq]
@[simp] theorem setRegs_dt (l : List (Reg × Byte)) : (s.setRegs l).dt = s.dt := by rw [setRegs_eq]
@[simp] theorem setRegs_st (l : List (Reg × Byte)) : (s.setRegs l).st = s.st := by rw [setRegs_eq]
@[simp] theorem setRegs_stack (l : List (Reg × Byte)) : (s.setRegs l).stack = s.stack := by rw [setRegs_eq]
@[simp] theorem setRegs_sp (l : List (Reg × Byte)) : (s.setRegs l).sp = s.sp := by rw [setRegs_eq]
@[simp] theorem setRegs_mem (l : List (Reg × Byte)) : (s.setRegs l).mem = s.mem := by rw [setRegs_eq]
@[simp] theorem setRegs_fb (l : List (Reg × Byte)) : (s.setRegs l).fb = s.fb := by rw [setRegs_eq]
@[simp] theorem setRegs_dirty (l : List (Reg × Byte)) : (s.setRegs l).dirty = s.dirty := by rw [setRegs_eq]
@[simp] theorem setRegs_key (l : List (Reg × Byte)) : (s.setRegs l).key = s.key := by rw [setRegs_eq]
@[simp] theorem setRegs_fault (l : List (Reg × Byte)) : (s.setRegs l).fault = s.fault := by rw [setRegs_eq]
@[simp] theorem setRegs_rndDraws (l : List (Reg × Byte)) : (s.setRegs l).rndDraws = s.rndDraws := by rw [setRegs_eq]
@[simp] theorem setRegs_config (l : List (Reg × Byte)) : (s.setRegs l).config = s.config := by rw [setRegs_eq]
@[simp] theorem setRegs_readByte (l : List (Reg × Byte)) (p : Addr) : (s.setRegs l).readByte p = s.readByte p := by
  simp [State.readByte]

/-! ### The operand lists of the block transfers and of the digit store -/

@[simp] theorem mem_regsUpTo (x r : Reg) : r ∈ regsUpTo x ↔ r ≤ x := by simp [regsUpTo]

theorem regsUpTo_nodup (x : Reg) : (regsUpTo x).Nodup := (List.nodup_finRange 16).filter _

theorem dataAddr_toNat (i : Addr) (k : Nat) : (dataAddr i k).toNat = (i.toNat + k) % 4096 := by
  simp [dataAddr, BitVec.toNat_add, Nat.add_mod]

theorem dataAddr_zero (i : Addr) : dataAddr i 0 = i := by simp [dataAddr]

/-- Two different offsets below 4096 give two different addresses. -/
theorem dataAddr_inj (i : Addr) (j k : Nat) (hj : j < 4096) (hk : k < 4096) : dataAddr i j = dataAddr i k ↔ j = k := by
  rw [← BitVec.toNat_inj, dataAddr_toNat, dataAddr_toNat]
  have := i.isLt
  omega

theorem blockStores_fst (x : Reg) :
    (blockStores s x).map Prod.fst = (regsUpTo x).map (fun k => dataAddr s.i k.val) := by
  simp [blockStores, Function.comp_def]

theorem blockStores_nodup (x : Reg) : ((blockStores s x).map Prod.fst).Nodup := by
  rw [blockStores_fst]
  refine (regsUpTo_nodup x).map_on ?_
  intro j _ k _ h
  exact Fin.ext ((dataAddr_inj s.i j.val k.val (by omega) (by omega)).mp h)

theorem blockLoads_fst (x : Reg) : (blockLoads s x).map Prod.fst = regsUpTo x := by
  simp [blockLoads, Function.comp_def]

theorem digitStores_nodup (i : Addr) (b : Byte) : ((digitStores i b).map Prod.fst).Nodup := by
  have h (j k : Nat) (hj : j < 4096) (hk : k < 4096) (hn : j ≠ k) : dataAddr i j ≠ dataAddr i k :=
    fun e => hn ((dataAddr_inj i j k hj hk).mp e)
  simp [digitStores, h 0 1, h 0 2, h 1 2]

/-! ### The key scan (R122) -/

theorem lowestKey_none : s.lowestKey = none ↔ ∀ k, s.keyDown k = false := by
  simp [State.lowestKey]

/-- The scan answers the lowest pressed key. -/
theorem lowestKey_some (k : KeyIndex) :
    s.lowestKey = some k ↔ s.keyDown k = true ∧ ∀ j, j < k → s.keyDown j = false := by
  unfold State.lowestKey
  rw [List.find?_eq_some_iff_getElem]
  constructor
  · rintro ⟨hk, n, hn, he, hl⟩
    simp only [List.getElem_finRange] at he hl
    refine ⟨hk, fun j hj => ?_⟩
    have hjn : j.val < n := by
      have : k.val = n := by rw [← he]; rfl
      have : j.val < k.val := hj
      omega
    simpa using hl j.val hjn
  · rintro ⟨hk, hl⟩
    refine ⟨hk, k.val, by simp, by simp, fun j hj => ?_⟩
    simp only [List.getElem_finRange, Bool.not_eq_true']
    exact hl _ hj

/-! ### The timers (R151) -/

/-- One count down, floored at zero. -/
theorem countDown_toNat (b : Byte) : (countDown b).toNat = b.toNat - 1 := by
  unfold countDown
  split
  · next h => simp [h]
  · next h =>
    have : b.toNat ≠ 0 := fun e => h (BitVec.eq_of_toNat_eq (by simpa using e))
    have := b.isLt
    rw [BitVec.toNat_sub]
    simp; omega

/-! ### The fetch (R33, R37, R71) -/

theorem fetchedWord_toNat :
    s.fetchedWord.toNat = 256 * (s.readByte s.pc).toNat + (s.readByte (s.pc + 1#12)).toNat := by
  simp only [State.fetchedWord, wordOfBytes, BitVec.toNat_append]
  rw [← Nat.shiftLeft_add_eq_or_of_lt (BitVec.isLt _), Nat.shiftLeft_eq]
  omega

theorem word_of_its_bytes (w : Word) : wordOfBytes (Word.high w) (Word.low w) = w := by
  apply BitVec.eq_of_getLsbD_eq
  intro k hk
  simp only [wordOfBytes, Word.high, Word.low, BitVec.getLsbD_append, BitVec.getLsbD_extractLsb']
  by_cases h : k < 8
  · simp [h]
  · simp [h, show k - 8 < 8 by omega, show 8 + (k - 8) = k by omega]

/-- The word placed at the fetch address is the word the next step fetches. -/
theorem placeWord_fetchedWord (w : Word) : (s.placeWord w).fetchedWord = w := by
  have hne : s.pc ≠ s.pc + 1#12 := by
    intro h
    have := congrArg BitVec.toNat h
    rw [BitVec.toNat_add] at this
    have := s.pc.isLt
    simp at *
  have hd : (([(s.pc, Word.high w), (s.pc + 1#12, Word.low w)] : List (Addr × Byte)).map Prod.fst).Nodup := by
    simp [hne]
  unfold State.fetchedWord State.placeWord
  rw [writeBytes_pc, writeBytes_readByte_mem s _ s.pc (Word.high w) hd (by simp),
    writeBytes_readByte_mem s _ (s.pc + 1#12) (Word.low w) hd (by simp), word_of_its_bytes]

/-! ### The invariant through the updates that do not touch memory -/

/-- The invariant depends on memory and the parameters only. -/
theorem wf_of_same {t : State} (hm : t.mem = s.mem) (hc : t.config = s.config) (h : s.wf) : t.wf := by
  simpa [State.wf, hm, hc] using h

theorem resetWith_wf (c : Config) : (State.resetWith c).wf := rfl

end Sys2Proof.Machine
end

