-- ==== Sys2Proof/Laws/Display.lean ====
section
/-! SUPPORT. What drawing a sprite does to the display (spec 42_display.md R111 to R113): the cells it flips, each at most
once, and the collision. -/

namespace Sys2Proof.Machine

/-! ### One cell of a display -/

/-- A flip inverts one cell and no other. -/
theorem cell_flip (d : Display) (a c : Nat) (ha : a < 2048) :
    Display.cell (Display.flip d a) c = (Display.cell d c ^^ decide (c = a)) := by
  unfold Display.cell Display.flip
  by_cases hc : c < 2048
  · simp only [hc, ha, dite_true, Vector.getElem_set]
    by_cases hr : a / 64 = c / 64
    · simp only [hr, if_true, BitVec.getLsbD_xor, BitVec.getLsbD_twoPow]
      have : c % 64 < 64 := Nat.mod_lt _ (by decide)
      congr 1
      rw [Bool.eq_iff_iff]
      simp; omega
    · have : c ≠ a := fun e => hr (by rw [e])
      simp [hr, this]
  · have : c ≠ a := by omega
    simp [hc, this]

/-- A display is its 2048 cells. -/
theorem display_ext (d e : Display) (h : ∀ c, c < 2048 → Display.cell d c = Display.cell e c) : d = e := by
  apply Vector.ext
  intro row hrow
  apply BitVec.eq_of_getLsbD_eq
  intro col hcol
  have := h (col + row * 64) (by omega)
  simp only [Display.cell, show col + row * 64 < 2048 by omega, dite_true] at this
  simpa [show (col + row * 64) / 64 = row by omega, show (col + row * 64) % 64 = col by omega] using this

theorem cell_clear (c : Nat) : Display.cell Display.clear c = false := by
  simp [Display.cell, Display.clear]

/-! ### A draw is a sequence of cell flips -/

/-- The cell of one pixel of a sprite row, if the pixel's bit is set and it is drawn. -/
def rowPixel (edge : DrawEdge) (vx uy : Nat) (row : Byte) (col : Nat) : Option Nat :=
  if row.getLsbD (7 - col) then pixelCell edge (vx + col) uy else none

/-- The cells a sprite flips, row by row, left to right. -/
def spriteCells (s : State) (vx vy n : Nat) : List Nat :=
  (List.range n).flatMap (fun row =>
    (List.range 8).filterMap (rowPixel s.config.drawEdge vx (vy + row) (s.readByte (dataAddr s.i row))))

theorem drawPixel_eq (edge : DrawEdge) (vx uy : Nat) (row : Byte) (p : Canvas) (col : Nat) :
    Canvas.drawPixel edge vx uy row p col = (rowPixel edge vx uy row col).toList.foldl Canvas.flip p := by
  unfold Canvas.drawPixel rowPixel
  split
  · cases pixelCell edge (vx + col) uy <;> rfl
  · rfl

theorem foldl_filterMap_flip (f : Nat → Option Nat) (l : List Nat) (p : Canvas) :
    l.foldl (fun p col => (f col).toList.foldl Canvas.flip p) p = (l.filterMap f).foldl Canvas.flip p := by
  induction l generalizing p with
  | nil => rfl
  | cons a l ih =>
    rw [List.foldl_cons, ih, List.filterMap_cons]
    cases f a <;> rfl

theorem drawSprite_eq (s : State) (vx vy n : Nat) :
    drawSprite s vx vy n = (spriteCells s vx vy n).foldl Canvas.flip ⟨s.fb, false⟩ := by
  unfold drawSprite spriteCells
  rw [List.foldl_flatMap]
  congr 1
  funext p row
  unfold Canvas.drawRow
  rw [← foldl_filterMap_flip]
  congr 1
  funext q col
  exact drawPixel_eq _ _ _ _ _ _

/-- Flipping distinct cells of the display flips exactly those, and a collision is a listed cell that was set. -/
theorem foldl_flip (l : List Nat) (p : Canvas) (hd : l.Nodup) (hb : ∀ c ∈ l, c < 2048) :
    (∀ c, Display.cell (l.foldl Canvas.flip p).fb c = (Display.cell p.fb c ^^ decide (c ∈ l))) ∧
    ((l.foldl Canvas.flip p).collision = true ↔ p.collision = true ∨ ∃ c ∈ l, Display.cell p.fb c = true) := by
  induction l generalizing p with
  | nil => simp
  | cons a l ih =>
    simp only [List.nodup_cons] at hd
    have ha : a < 2048 := hb a (by simp)
    have flip_bit (c : Nat) : Display.cell (p.flip a).fb c = (Display.cell p.fb c ^^ decide (c = a)) := by
      exact cell_flip p.fb a c ha
    obtain ⟨h1, h2⟩ := ih (p.flip a) hd.2 (fun c hc => hb c (by simp [hc]))
    simp only [List.foldl_cons]
    refine ⟨fun c => ?_, ?_⟩
    · rw [h1, flip_bit]
      by_cases hc : c = a
      · subst hc; simp [hd.1]
      · simp [hc]
    · rw [h2]
      have hcoll : (p.flip a).collision = true ↔ p.collision = true ∨ Display.cell p.fb a = true := by
        simp [Canvas.flip]
      rw [hcoll]
      have hl : (∃ c ∈ l, Display.cell (p.flip a).fb c = true) ↔ ∃ c ∈ l, Display.cell p.fb c = true := by
        constructor
        · rintro ⟨c, hc, h⟩
          refine ⟨c, hc, ?_⟩
          rw [flip_bit] at h
          have : c ≠ a := fun e => hd.1 (e ▸ hc)
          simpa [this] using h
        · rintro ⟨c, hc, h⟩
          refine ⟨c, hc, ?_⟩
          rw [flip_bit]
          have : c ≠ a := fun e => hd.1 (e ▸ hc)
          simpa [this] using h
      rw [hl]
      simp [or_assoc]

/-! ### The pixels of one sprite fall on distinct cells (R111 (d)) -/

theorem pixelCell_lt (edge : DrawEdge) (ux uy c : Nat) (h : pixelCell edge ux uy = some c) : c < 2048 := by
  cases edge with
  | wrap => simp only [pixelCell, Option.some.injEq] at h; omega
  | clip =>
    simp only [pixelCell] at h
    split at h
    · cases h
    · simp only [Option.some.injEq] at h; omega

theorem pixelCell_inj (edge : DrawEdge) (vx vy r r' k k' c : Nat) (hr : r < 16) (hr' : r' < 16) (hk : k < 8) (hk' : k' < 8)
    (h : pixelCell edge (vx + k) (vy + r) = some c) (h' : pixelCell edge (vx + k') (vy + r') = some c) :
    r = r' ∧ k = k' := by
  cases edge with
  | wrap => simp only [pixelCell, Option.some.injEq] at h h'; omega
  | clip =>
    simp only [pixelCell] at h h'
    split at h
    · cases h
    · split at h'
      · cases h'
      · simp only [Option.some.injEq] at h h'; omega

theorem rowPixel_some (edge : DrawEdge) (vx uy : Nat) (row : Byte) (col c : Nat) :
    rowPixel edge vx uy row col = some c ↔ row.getLsbD (7 - col) = true ∧ pixelCell edge (vx + col) uy = some c := by
  unfold rowPixel
  split <;> simp_all

theorem mem_spriteCells (s : State) (vx vy n c : Nat) :
    c ∈ spriteCells s vx vy n ↔ ∃ row, row < n ∧ ∃ col, col < 8 ∧
      (s.readByte (dataAddr s.i row)).getLsbD (7 - col) = true ∧
      pixelCell s.config.drawEdge (vx + col) (vy + row) = some c := by
  simp [spriteCells, rowPixel_some]

theorem spriteCells_lt (s : State) (vx vy n : Nat) : ∀ c ∈ spriteCells s vx vy n, c < 2048 := by
  intro c h
  obtain ⟨_, _, _, _, _, h⟩ := (mem_spriteCells s vx vy n c).mp h
  exact pixelCell_lt _ _ _ _ h

theorem spriteCells_nodup (s : State) (vx vy n : Nat) (hn : n ≤ 16) : (spriteCells s vx vy n).Nodup := by
  unfold spriteCells
  rw [List.nodup_flatMap]
  constructor
  · intro row hrow
    simp only [List.mem_range] at hrow
    refine List.pairwise_filterMap.mpr (List.Pairwise.imp_of_mem ?_ (List.nodup_range (n := 8)))
    intro k k' hk hk' hne c hc c' hc' e
    subst e
    simp only [List.mem_range] at hk hk'
    rw [rowPixel_some] at hc hc'
    exact hne (pixelCell_inj _ vx vy row row k k' c (by omega) (by omega) hk hk' hc.2 hc'.2).2
  · refine List.Pairwise.imp_of_mem ?_ (List.nodup_range (n := n))
    intro r r' hr hr' hne
    simp only [List.mem_range] at hr hr'
    simp only [Function.onFun, List.disjoint_left, List.mem_filterMap, List.mem_range, rowPixel_some, not_exists]
    rintro c ⟨k, hk, -, hc⟩ k' ⟨hk', -, hc'⟩
    exact hne (pixelCell_inj _ vx vy r r' k k' c (by omega) (by omega) hk hk' hc hc').1

/-- What a draw of at most 15 rows does: every cell of the sprite flips, no other cell changes, and a collision is a cell
of the sprite that was set. -/
theorem drawSprite_spec (s : State) (vx vy n : Nat) (hn : n ≤ 16) :
    (∀ c, Display.cell (drawSprite s vx vy n).fb c = (s.cell c ^^ decide (c ∈ spriteCells s vx vy n))) ∧
    ((drawSprite s vx vy n).collision = true ↔ ∃ c ∈ spriteCells s vx vy n, s.cell c = true) := by
  rw [drawSprite_eq]
  have h := foldl_flip _ ⟨s.fb, false⟩ (spriteCells_nodup s vx vy n hn) (spriteCells_lt s vx vy n)
  exact ⟨h.1, by simpa [State.cell] using h.2⟩

end Sys2Proof.Machine
end

