-- ==== Sys2Proof/Laws/PerInstr.lean ====
section
/-! SUPPORT. Per-instruction facts about the encoding. The family `FitsItsRow`: the canonical word of an instruction fits
that instruction's row of the opcode map (spec 30_encoding.md R57), and every bit outside `readBits` is zero in it (R56, log 33). -/

namespace Sys2Proof.Laws

/-! ### The shapes of a word under the masks of R57 -/

theorem wordNNN_maskF000 (o : BitVec 4) (nnn : Addr) : wordNNN o nnn &&& 0xF000#16 = o ++ 0x000#12 := by
  apply BitVec.eq_of_getLsbD_eq
  intro k hk
  simp only [wordNNN, BitVec.getLsbD_and, BitVec.getLsbD_append]
  interval_cases k <;> simp

theorem wordXNN_maskF000 (o : BitVec 4) (x : Reg) (nn : Byte) : wordXNN o x nn &&& 0xF000#16 = o ++ 0x000#12 := by
  apply BitVec.eq_of_getLsbD_eq
  intro k hk
  simp only [wordXNN, BitVec.getLsbD_and, BitVec.getLsbD_append]
  interval_cases k <;> simp

theorem wordXNN_maskF0FF (o : BitVec 4) (x : Reg) (nn : Byte) : wordXNN o x nn &&& 0xF0FF#16 = o ++ 0x0#4 ++ nn := by
  apply BitVec.eq_of_getLsbD_eq
  intro k hk
  simp only [wordXNN, BitVec.getLsbD_and, BitVec.getLsbD_append]
  interval_cases k <;> simp

theorem wordXYN_maskF000 (o : BitVec 4) (x y : Reg) (n : BitVec 4) :
    wordXYN o x y n &&& 0xF000#16 = o ++ 0x000#12 := by
  apply BitVec.eq_of_getLsbD_eq
  intro k hk
  simp only [wordXYN, BitVec.getLsbD_and, BitVec.getLsbD_append]
  interval_cases k <;> simp

theorem wordXYN_maskF00F (o : BitVec 4) (x y : Reg) (n : BitVec 4) :
    wordXYN o x y n &&& 0xF00F#16 = o ++ 0x00#8 ++ n := by
  apply BitVec.eq_of_getLsbD_eq
  intro k hk
  simp only [wordXYN, BitVec.getLsbD_and, BitVec.getLsbD_append]
  interval_cases k <;> simp

theorem wordXYN_maskFFF0 (o : BitVec 4) (x y : Reg) : wordXYN o x y 0#4 &&& 0xFFF0#16 = wordXYN o x y 0#4 := by
  apply BitVec.eq_of_getLsbD_eq
  intro k hk
  simp only [wordXYN, BitVec.getLsbD_and, BitVec.getLsbD_append]
  interval_cases k <;> simp

theorem word_maskFFFF (w : Word) : w &&& 0xFFFF#16 = w := BitVec.and_allOnes

end Sys2Proof.Laws

namespace Sys2Proof.Laws.FitsItsRow

/-- The canonical word fits the instruction's row, and its bits outside `readBits` are zero (log 33). -/
def Statement (i : Instr) : Prop :=
  encode i &&& (rowOf i).mask = (rowOf i).value ∧ encode i &&& readBits i = encode i

theorem cls : Statement .cls := ⟨rfl, rfl⟩
theorem ret : Statement .ret := ⟨rfl, rfl⟩
theorem jp (nnn : Addr) : Statement (.jp nnn) := ⟨wordNNN_maskF000 _ nnn, word_maskFFFF _⟩
theorem call (nnn : Addr) : Statement (.call nnn) := ⟨wordNNN_maskF000 _ nnn, word_maskFFFF _⟩
theorem seImm (x : Reg) (nn : Byte) : Statement (.seImm x nn) := ⟨wordXNN_maskF000 _ x nn, word_maskFFFF _⟩
theorem sneImm (x : Reg) (nn : Byte) : Statement (.sneImm x nn) := ⟨wordXNN_maskF000 _ x nn, word_maskFFFF _⟩
theorem seReg (x y : Reg) : Statement (.seReg x y) := ⟨wordXYN_maskF000 _ x y _, wordXYN_maskFFF0 _ x y⟩
theorem ldImm (x : Reg) (nn : Byte) : Statement (.ldImm x nn) := ⟨wordXNN_maskF000 _ x nn, word_maskFFFF _⟩
theorem addImm (x : Reg) (nn : Byte) : Statement (.addImm x nn) := ⟨wordXNN_maskF000 _ x nn, word_maskFFFF _⟩
theorem ldReg (x y : Reg) : Statement (.ldReg x y) := ⟨wordXYN_maskF00F _ x y _, word_maskFFFF _⟩
theorem orReg (x y : Reg) : Statement (.orReg x y) := ⟨wordXYN_maskF00F _ x y _, word_maskFFFF _⟩
theorem andReg (x y : Reg) : Statement (.andReg x y) := ⟨wordXYN_maskF00F _ x y _, word_maskFFFF _⟩
theorem xorReg (x y : Reg) : Statement (.xorReg x y) := ⟨wordXYN_maskF00F _ x y _, word_maskFFFF _⟩
theorem addReg (x y : Reg) : Statement (.addReg x y) := ⟨wordXYN_maskF00F _ x y _, word_maskFFFF _⟩
theorem subReg (x y : Reg) : Statement (.subReg x y) := ⟨wordXYN_maskF00F _ x y _, word_maskFFFF _⟩
theorem shr (x y : Reg) : Statement (.shr x y) := ⟨wordXYN_maskF00F _ x y _, word_maskFFFF _⟩
theorem subn (x y : Reg) : Statement (.subn x y) := ⟨wordXYN_maskF00F _ x y _, word_maskFFFF _⟩
theorem shl (x y : Reg) : Statement (.shl x y) := ⟨wordXYN_maskF00F _ x y _, word_maskFFFF _⟩
theorem sneReg (x y : Reg) : Statement (.sneReg x y) := ⟨wordXYN_maskF000 _ x y _, wordXYN_maskFFF0 _ x y⟩
theorem ldI (nnn : Addr) : Statement (.ldI nnn) := ⟨wordNNN_maskF000 _ nnn, word_maskFFFF _⟩
theorem jpV0 (nnn : Addr) : Statement (.jpV0 nnn) := ⟨wordNNN_maskF000 _ nnn, word_maskFFFF _⟩
theorem rnd (x : Reg) (nn : Byte) : Statement (.rnd x nn) := ⟨wordXNN_maskF000 _ x nn, word_maskFFFF _⟩
theorem drw (x y : Reg) (n : BitVec 4) : Statement (.drw x y n) := ⟨wordXYN_maskF000 _ x y n, word_maskFFFF _⟩
theorem skp (x : Reg) : Statement (.skp x) := ⟨wordXNN_maskF0FF _ x _, word_maskFFFF _⟩
theorem sknp (x : Reg) : Statement (.sknp x) := ⟨wordXNN_maskF0FF _ x _, word_maskFFFF _⟩
theorem ldVxDt (x : Reg) : Statement (.ldVxDt x) := ⟨wordXNN_maskF0FF _ x _, word_maskFFFF _⟩
theorem ldVxK (x : Reg) : Statement (.ldVxK x) := ⟨wordXNN_maskF0FF _ x _, word_maskFFFF _⟩
theorem ldDtVx (x : Reg) : Statement (.ldDtVx x) := ⟨wordXNN_maskF0FF _ x _, word_maskFFFF _⟩
theorem ldStVx (x : Reg) : Statement (.ldStVx x) := ⟨wordXNN_maskF0FF _ x _, word_maskFFFF _⟩
theorem addI (x : Reg) : Statement (.addI x) := ⟨wordXNN_maskF0FF _ x _, word_maskFFFF _⟩
theorem ldF (x : Reg) : Statement (.ldF x) := ⟨wordXNN_maskF0FF _ x _, word_maskFFFF _⟩
theorem ldB (x : Reg) : Statement (.ldB x) := ⟨wordXNN_maskF0FF _ x _, word_maskFFFF _⟩
theorem ldMemVx (x : Reg) : Statement (.ldMemVx x) := ⟨wordXNN_maskF0FF _ x _, word_maskFFFF _⟩
theorem ldVxMem (x : Reg) : Statement (.ldVxMem x) := ⟨wordXNN_maskF0FF _ x _, word_maskFFFF _⟩
theorem sys (nnn : Addr) : Statement (.sys nnn) := ⟨wordNNN_maskF000 _ nnn, word_maskFFFF _⟩

/-- The family, for every instruction. -/
theorem all (i : Instr) : Statement i := by
  cases i
  case cls => exact cls
  case ret => exact ret
  case jp nnn => exact jp nnn
  case call nnn => exact call nnn
  case seImm x nn => exact seImm x nn
  case sneImm x nn => exact sneImm x nn
  case seReg x y => exact seReg x y
  case ldImm x nn => exact ldImm x nn
  case addImm x nn => exact addImm x nn
  case ldReg x y => exact ldReg x y
  case orReg x y => exact orReg x y
  case andReg x y => exact andReg x y
  case xorReg x y => exact xorReg x y
  case addReg x y => exact addReg x y
  case subReg x y => exact subReg x y
  case shr x y => exact shr x y
  case subn x y => exact subn x y
  case shl x y => exact shl x y
  case sneReg x y => exact sneReg x y
  case ldI nnn => exact ldI nnn
  case jpV0 nnn => exact jpV0 nnn
  case rnd x nn => exact rnd x nn
  case drw x y n => exact drw x y n
  case skp x => exact skp x
  case sknp x => exact sknp x
  case ldVxDt x => exact ldVxDt x
  case ldVxK x => exact ldVxK x
  case ldDtVx x => exact ldDtVx x
  case ldStVx x => exact ldStVx x
  case addI x => exact addI x
  case ldF x => exact ldF x
  case ldB x => exact ldB x
  case ldMemVx x => exact ldMemVx x
  case ldVxMem x => exact ldVxMem x
  case sys nnn => exact sys nnn

end Sys2Proof.Laws.FitsItsRow
end

