-- ==== Sys2Proof/Laws/Encoding.lean ====
section
/-! SUPPORT. The fields of a word in each format, and that every word is made of its fields (spec 30_encoding.md R51,
R52). -/

namespace Sys2Proof.Laws

/-! ### Reading the fields back -/

theorem reg_of_bits (x : Reg) (v : BitVec 4) (h : v = BitVec.ofFin x) : v.toFin = x := by rw [h]

@[simp] theorem wordNNN_op (o : BitVec 4) (nnn : Addr) : Word.op (wordNNN o nnn) = o := by
  apply BitVec.eq_of_getLsbD_eq
  intro k hk
  simp only [Word.op, wordNNN, BitVec.getLsbD_extractLsb', BitVec.getLsbD_append]
  interval_cases k <;> simp

@[simp] theorem wordNNN_nnn (o : BitVec 4) (nnn : Addr) : Word.nnn (wordNNN o nnn) = nnn := by
  apply BitVec.eq_of_getLsbD_eq
  intro k hk
  simp only [Word.nnn, wordNNN, BitVec.getLsbD_extractLsb', BitVec.getLsbD_append]
  interval_cases k <;> simp

@[simp] theorem wordXNN_op (o : BitVec 4) (x : Reg) (nn : Byte) : Word.op (wordXNN o x nn) = o := by
  apply BitVec.eq_of_getLsbD_eq
  intro k hk
  simp only [Word.op, wordXNN, BitVec.getLsbD_extractLsb', BitVec.getLsbD_append]
  interval_cases k <;> simp

@[simp] theorem wordXNN_x (o : BitVec 4) (x : Reg) (nn : Byte) : Word.x (wordXNN o x nn) = x := by
  apply reg_of_bits
  apply BitVec.eq_of_getLsbD_eq
  intro k hk
  simp only [wordXNN, BitVec.getLsbD_extractLsb', BitVec.getLsbD_append]
  interval_cases k <;> simp

@[simp] theorem wordXNN_nn (o : BitVec 4) (x : Reg) (nn : Byte) : Word.nn (wordXNN o x nn) = nn := by
  apply BitVec.eq_of_getLsbD_eq
  intro k hk
  simp only [Word.nn, wordXNN, BitVec.getLsbD_extractLsb', BitVec.getLsbD_append]
  interval_cases k <;> simp

@[simp] theorem wordXYN_op (o : BitVec 4) (x y : Reg) (n : BitVec 4) : Word.op (wordXYN o x y n) = o := by
  apply BitVec.eq_of_getLsbD_eq
  intro k hk
  simp only [Word.op, wordXYN, BitVec.getLsbD_extractLsb', BitVec.getLsbD_append]
  interval_cases k <;> simp

@[simp] theorem wordXYN_x (o : BitVec 4) (x y : Reg) (n : BitVec 4) : Word.x (wordXYN o x y n) = x := by
  apply reg_of_bits
  apply BitVec.eq_of_getLsbD_eq
  intro k hk
  simp only [wordXYN, BitVec.getLsbD_extractLsb', BitVec.getLsbD_append]
  interval_cases k <;> simp

@[simp] theorem wordXYN_y (o : BitVec 4) (x y : Reg) (n : BitVec 4) : Word.y (wordXYN o x y n) = y := by
  apply reg_of_bits
  apply BitVec.eq_of_getLsbD_eq
  intro k hk
  simp only [wordXYN, BitVec.getLsbD_extractLsb', BitVec.getLsbD_append]
  interval_cases k <;> simp

@[simp] theorem wordXYN_n (o : BitVec 4) (x y : Reg) (n : BitVec 4) : Word.n (wordXYN o x y n) = n := by
  apply BitVec.eq_of_getLsbD_eq
  intro k hk
  simp only [Word.n, wordXYN, BitVec.getLsbD_extractLsb', BitVec.getLsbD_append]
  interval_cases k <;> simp

/-! ### Every word is made of its fields -/

theorem word_eq_NNN (w : Word) : w = wordNNN (Word.op w) (Word.nnn w) := by
  apply BitVec.eq_of_getLsbD_eq
  intro k hk
  simp only [Word.op, Word.nnn, wordNNN, BitVec.getLsbD_extractLsb', BitVec.getLsbD_append]
  interval_cases k <;> simp

theorem word_eq_XNN (w : Word) : w = wordXNN (Word.op w) (Word.x w) (Word.nn w) := by
  apply BitVec.eq_of_getLsbD_eq
  intro k hk
  simp only [Word.op, Word.x, Word.nn, wordXNN, BitVec.getLsbD_extractLsb', BitVec.getLsbD_append, BitVec.ofFin_toFin]
  interval_cases k <;> simp

theorem word_eq_XYN (w : Word) : w = wordXYN (Word.op w) (Word.x w) (Word.y w) (Word.n w) := by
  apply BitVec.eq_of_getLsbD_eq
  intro k hk
  simp only [Word.op, Word.x, Word.y, Word.n, wordXYN, BitVec.getLsbD_extractLsb', BitVec.getLsbD_append,
    BitVec.ofFin_toFin]
  interval_cases k <;> simp

end Sys2Proof.Laws
end

