-- ==== Sys2Proof/Laws/Step.lean ====
section
/-! SUPPORT. What a step can do, said once (spec 40_cycle_and_control.md R70), and what the three meanings that branch can
do; later proofs cite these and never unfold `step`. -/

namespace Sys2Proof.Machine

/-- Where the fetched word decodes, the step is the instruction's meaning between the advance and the tick. -/
theorem step_of_decode (s : State) (i : Instr) (h : decode s.fetchedWord = .ok i) :
    step s = finishStep (exec i s.enterExecute) := by
  simp [step, cycle, executeWord, h]

/-- Where it does not, the step reports the word (R85). -/
theorem step_of_unknown (s : State) (e : DecodeError) (h : decode s.fetchedWord = .error e) :
    step s = .next (s.enterExecute.raiseUnknown s.fetchedWord).tick := by
  simp [step, cycle, executeWord, h, finishStep]

theorem finishStep_next (r : Result) (t : State) : finishStep r = .next t ↔ ∃ u, r = .next u ∧ t = u.tick := by
  cases r <;> simp [finishStep, eq_comm]

/-- Everything a step that answers a next state can have done. -/
theorem step_inversion (s t : State) (h : step s = .next t) :
    (∃ i u, decode s.fetchedWord = .ok i ∧ exec i s.enterExecute = .next u ∧ t = u.tick) ∨
    (∃ e, decode s.fetchedWord = .error e ∧ t = (s.enterExecute.raiseUnknown s.fetchedWord).tick) := by
  cases hd : decode s.fetchedWord with
  | ok i =>
    rw [step_of_decode s i hd, finishStep_next] at h
    obtain ⟨u, hu, rfl⟩ := h
    exact .inl ⟨i, u, rfl, hu, rfl⟩
  | error e =>
    rw [step_of_unknown s e hd, Host.Outcome.next.injEq] at h
    exact .inr ⟨e, rfl, h.symm⟩

/-- The fetch address seen while the instruction executes is the PC the step began with (R85, R142). -/
theorem enterExecute_fetchAddress (s : State) : s.enterExecute.fetchAddress = s.pc := by
  simp [State.fetchAddress]

/-- What RET can do (R77). -/
theorem execRet_inversion (s u : State) (h : execRet s = .next u) :
    (∃ hp : 0 < s.sp.val, u = (s.pop hp).2.setPc (s.pop hp).1) ∨ (s.sp.val = 0 ∧ u = s.raise .stackUnderflow) := by
  unfold execRet at h
  split at h
  · next hp => exact .inl ⟨hp, by simpa using h.symm⟩
  · exact .inr ⟨by omega, by simpa using h.symm⟩

/-- What CALL can do (R79). -/
theorem execCall_inversion (nnn : Addr) (s u : State) (h : execCall nnn s = .next u) :
    (∃ hp : s.sp.val < 16, u = (s.push s.pc hp).setPc nnn) ∨ (s.sp.val = 16 ∧ u = s.raise .stackOverflow) := by
  unfold execCall at h
  split at h
  · next hp => exact .inl ⟨hp, by simpa using h.symm⟩
  · exact .inr ⟨by omega, by simpa using h.symm⟩

/-- What LD Vx, K can do (R122). -/
theorem execLdVxK_inversion (x : Reg) (s u : State) (h : execLdVxK x s = .next u) :
    (∃ k, s.lowestKey = some k ∧ u = s.setV x (BitVec.ofNat 8 k.val)) ∨
    (s.lowestKey = none ∧ u = s.setPc s.fetchAddress) := by
  unfold execLdVxK at h
  split at h
  · next k hk => exact .inl ⟨k, hk, by simpa using h.symm⟩
  · next hk => exact .inr ⟨hk, by simpa using h.symm⟩

end Sys2Proof.Machine
end

