-- ==== Sys2Proof/Tests/Slice0.lean ====
section
/-! SUPPORT. The model's own tests. Expected values come from the spec's worked examples and tables (95_test_vectors.md,
cited by their ids) or from a rule's own example; the witnesses show that the hypotheses of the statements can be met. -/

namespace Sys2Proof.Tests

open Machine

/-! ### Helpers -/

/-- `State.reset` with some registers set. -/
def withRegs (regs : List (Reg × Byte)) : State := State.reset.setRegs regs

/-- A test of the next state, false where there is none. -/
def nextIs (r : Result) (p : State → Bool) : Bool :=
  match r with
  | .next t => p t
  | .fault _ => false
  | .refused _ => false

/-- One step from `s` with the word `w` at the fetch address. -/
def stepOn (w : Nat) (s : State) : Result := step (s.withFetchWord 16 w)

/-- `s` with the given keys down. -/
def withKeys (s : State) (ks : List Nat) : State := ks.foldl (fun t k => t.setKey k true) s

/-- The display whose rows are as listed, the others clear. -/
def rowsAre (d : Display) (rows : List (Fin 32 × BitVec 64)) : Bool :=
  d == rows.foldl (fun e r => e.set r.1.val r.2) Display.clear

/-! ### WellFormed -/

theorem test_ill_formed_sys_E0 : WellFormed (.sys 0x0E0#12) = false := by decide
theorem test_ill_formed_sys_EE : WellFormed (.sys 0xAEE#12) = false := by decide

/-! ### Decode: for each row a word written out from its pattern (30_encoding.md R57, R63) -/

theorem test_decode_cls : decode 0b0000_0000_1110_0000#16 = .ok .cls := by decide
theorem test_decode_cls_ignored : decode 0b0000_1100_1110_0000#16 = .ok .cls := by decide
theorem test_decode_ret : decode 0b0000_1010_1110_1110#16 = .ok .ret := by decide
theorem test_decode_jp : decode 0b0001_1010_1011_1100#16 = .ok (.jp 0xABC#12) := by decide
theorem test_decode_call : decode 0b0010_0011_0000_0000#16 = .ok (.call 0x300#12) := by decide
theorem test_decode_seImm : decode 0b0011_1010_0100_0010#16 = .ok (.seImm 10 0x42#8) := by decide
theorem test_decode_sneImm : decode 0b0100_1010_0100_0010#16 = .ok (.sneImm 10 0x42#8) := by decide
theorem test_decode_seReg : decode 0b0101_0010_0011_0001#16 = .ok (.seReg 2 3) := by decide
theorem test_decode_ldImm : decode 0b0110_0001_0000_0011#16 = .ok (.ldImm 1 3#8) := by decide
theorem test_decode_addImm : decode 0b0111_0001_1111_1111#16 = .ok (.addImm 1 0xFF#8) := by decide
theorem test_decode_ldReg : decode 0b1000_0010_0011_0000#16 = .ok (.ldReg 2 3) := by decide
theorem test_decode_orReg : decode 0b1000_0010_0011_0001#16 = .ok (.orReg 2 3) := by decide
theorem test_decode_andReg : decode 0b1000_0010_0011_0010#16 = .ok (.andReg 2 3) := by decide
theorem test_decode_xorReg : decode 0b1000_0010_0011_0011#16 = .ok (.xorReg 2 3) := by decide
theorem test_decode_addReg : decode 0b1000_0000_0001_0100#16 = .ok (.addReg 0 1) := by decide
theorem test_decode_subReg : decode 0b1000_0010_0011_0101#16 = .ok (.subReg 2 3) := by decide
theorem test_decode_shr : decode 0b1000_0010_0011_0110#16 = .ok (.shr 2 3) := by decide
theorem test_decode_subn : decode 0b1000_0010_0011_0111#16 = .ok (.subn 2 3) := by decide
theorem test_decode_shl : decode 0b1000_0010_0011_1110#16 = .ok (.shl 2 3) := by decide
theorem test_decode_sneReg : decode 0b1001_0010_0011_1111#16 = .ok (.sneReg 2 3) := by decide
theorem test_decode_ldI : decode 0b1010_0010_0000_1010#16 = .ok (.ldI 0x20A#12) := by decide
theorem test_decode_jpV0 : decode 0b1011_1111_1111_1111#16 = .ok (.jpV0 0xFFF#12) := by decide
theorem test_decode_rnd : decode 0b1100_0011_0000_1111#16 = .ok (.rnd 3 0x0F#8) := by decide
theorem test_decode_drw : decode 0b1101_0010_0011_0101#16 = .ok (.drw 2 3 5#4) := by decide
theorem test_decode_skp : decode 0b1110_0100_1001_1110#16 = .ok (.skp 4) := by decide
theorem test_decode_sknp : decode 0b1110_0100_1010_0001#16 = .ok (.sknp 4) := by decide
theorem test_decode_ldVxDt : decode 0b1111_0001_0000_0111#16 = .ok (.ldVxDt 1) := by decide
theorem test_decode_ldVxK : decode 0b1111_0011_0000_1010#16 = .ok (.ldVxK 3) := by decide
theorem test_decode_ldDtVx : decode 0b1111_0010_0001_0101#16 = .ok (.ldDtVx 2) := by decide
theorem test_decode_ldStVx : decode 0b1111_0101_0001_1000#16 = .ok (.ldStVx 5) := by decide
theorem test_decode_addI : decode 0b1111_0010_0001_1110#16 = .ok (.addI 2) := by decide
theorem test_decode_ldF : decode 0b1111_0010_0010_1001#16 = .ok (.ldF 2) := by decide
theorem test_decode_ldB : decode 0b1111_0010_0011_0011#16 = .ok (.ldB 2) := by decide
theorem test_decode_ldMemVx : decode 0b1111_0001_0101_0101#16 = .ok (.ldMemVx 1) := by decide
theorem test_decode_ldVxMem : decode 0b1111_0010_0110_0101#16 = .ok (.ldVxMem 2) := by decide
theorem test_decode_sys : decode 0b0000_0001_0010_0011#16 = .ok (.sys 0x123#12) := by decide
theorem test_decode_unknown_8 : decode 0x8018#16 = .error (.unknownOpcode 0x8018#16) := by decide
theorem test_decode_unknown_E : decode 0xE19F#16 = .error (.unknownOpcode 0xE19F#16) := by decide
theorem test_decode_unknown_F : decode 0xF0FF#16 = .error (.unknownOpcode 0xF0FF#16) := by decide
theorem test_decode_truncated : decodeBytes [0x12#8] = .error .truncated := by decide
theorem test_decodeTableWord : decodeTableWord 16 0x6A42 = some (.ldImm 10 0x42#8) := by decide

/-! ### Control transfer -/

/-- V-CTL1. -/
theorem test_jp : nextIs (stepOn 0x1ABC State.reset) (fun t => t.pc == 0xABC#12) = true := by decide
/-- V-CTL3: the sum wraps. -/
theorem test_jpV0_wraps : nextIs (stepOn 0xBFFF (withRegs [(0, 2#8)])) (fun t => t.pc == 0x001#12) = true := by decide
/-- V-CTL4: the sixteenth nested call succeeds. -/
theorem test_call_depth_15 : nextIs (stepOn 0x2300 { State.reset with sp := 15 })
    (fun t => t.stackEntry 15 == 0x202#12 && t.sp == 16 && t.pc == 0x300#12 && t.fault == none) = true := by decide
/-- V-CTL5: the seventeenth faults. -/
theorem test_call_depth_16 : nextIs (stepOn 0x2300 { State.reset with sp := 16 })
    (fun t => t.stackEntry 15 == 0#12 && t.sp == 16 && t.pc == 0x202#12 && t.fault == some .stackOverflow) = true := by
  decide
/-- V-CTL6. -/
theorem test_ret_empty : nextIs (stepOn 0x00EE State.reset)
    (fun t => t.sp == 0 && t.pc == 0x202#12 && t.fault == some .stackUnderflow) = true := by decide
/-- V-CTL7. -/
theorem test_ret : nextIs (stepOn 0x0AEE { State.reset with sp := 1, stack := State.reset.stack.set 0 0x456#12 })
    (fun t => t.sp == 0 && t.pc == 0x456#12 && t.fault == none) = true := by decide
/-- V-CTL8. -/
theorem test_seImm : nextIs (stepOn 0x3A42 (withRegs [(10, 0x42#8)])) (fun t => t.pc == 0x204#12) = true := by decide
/-- V-CTL17: the advance and the skip wrap at the top of memory. -/
theorem test_seImm_wraps : nextIs (stepOn 0x3000 { State.reset with pc := 0xFFE#12 }) (fun t => t.pc == 0x002#12) = true := by
  decide
/-- V-CTL10. -/
theorem test_sneImm : nextIs (stepOn 0x4A42 (withRegs [(10, 0x43#8)])) (fun t => t.pc == 0x204#12) = true := by decide
/-- V-CTL13. -/
theorem test_seReg : nextIs (stepOn 0x5231 (withRegs [(2, 9#8), (3, 9#8)])) (fun t => t.pc == 0x204#12) = true := by decide
/-- V-CTL15. -/
theorem test_sneReg : nextIs (stepOn 0x9230 (withRegs [(2, 9#8), (3, 9#8)])) (fun t => t.pc == 0x202#12) = true := by decide
/-- V-CTL21. -/
theorem test_sys : nextIs (stepOn 0x0123 State.reset)
    (fun t => t.pc == 0x202#12 && t.fault == some (.unknownOpcode 0x0123#16 0x200#12)) = true := by decide
/-- V-ALU25: a word that no row fits. -/
theorem test_unknown_word : nextIs (stepOn 0x8018 (withRegs [(0, 1#8), (1, 2#8)]))
    (fun t => t.pc == 0x202#12 && t.getV 0 == 1#8 && t.fault == some (.unknownOpcode 0x8018#16 0x200#12)) = true := by
  decide
/-- V-CTL25: a faulting step ticks. -/
theorem test_fault_ticks : nextIs (stepOn 0x0000 { State.reset with dt := 5#8, st := 1#8 })
    (fun t => t.dt == 4#8 && t.st == 0#8) = true := by decide
/-- V-CTL18: the fetch at 0xFFF takes its second byte from 0x000. -/
theorem test_fetch_wraps : nextIs (stepOn 0x6A42 { State.reset with pc := 0xFFF#12 })
    (fun t => t.getV 10 == 0x42#8 && t.pc == 0x001#12 && t.readByte 0#12 == 0x42#8) = true := by decide

/-! ### Registers and arithmetic -/

/-- V-ALU22. -/
theorem test_ldImm : nextIs (stepOn 0x6A42 State.reset) (fun t => t.getV 10 == 0x42#8) = true := by decide
/-- V-ALU16. -/
theorem test_addImm : nextIs (stepOn 0x7002 (withRegs [(0, 0xFF#8), (15, 0x55#8)]))
    (fun t => t.getV 0 == 1#8 && t.getV 15 == 0x55#8) = true := by decide
/-- V-ALU21. -/
theorem test_ldReg : nextIs (stepOn 0x8230 (withRegs [(3, 0x77#8), (15, 0x55#8)]))
    (fun t => t.getV 2 == 0x77#8 && t.getV 3 == 0x77#8 && t.getV 15 == 0x55#8) = true := by decide
/-- V-ALU17. -/
theorem test_orReg : nextIs (stepOn 0x8011 (withRegs [(0, 0x0C#8), (1, 0x0A#8), (15, 0x55#8)]))
    (fun t => t.getV 0 == 0x0E#8 && t.getV 15 == 0x55#8) = true := by decide
/-- V-ALU18. -/
theorem test_andReg : nextIs (stepOn 0x8012 (withRegs [(0, 0x0C#8), (1, 0x0A#8), (15, 0x55#8)]))
    (fun t => t.getV 0 == 0x08#8 && t.getV 15 == 0x55#8) = true := by decide
/-- V-ALU19. -/
theorem test_xorReg : nextIs (stepOn 0x8013 (withRegs [(0, 0x0C#8), (1, 0x0A#8), (15, 0x55#8)]))
    (fun t => t.getV 0 == 0x06#8 && t.getV 15 == 0x55#8) = true := by decide
/-- V-ALU2: the flag is written last. -/
theorem test_addReg_into_VF : nextIs (stepOn 0x8F14 (withRegs [(15, 0xFF#8), (1, 1#8)]))
    (fun t => t.getV 15 == 1#8) = true := by decide
/-- V-ALU4: the old VF is the addend. -/
theorem test_addReg_from_VF : nextIs (stepOn 0x80F4 (withRegs [(0, 0xF0#8), (15, 0x20#8)]))
    (fun t => t.getV 0 == 0x10#8 && t.getV 15 == 1#8) = true := by decide
/-- V-ALU6: equal operands give 0. -/
theorem test_subReg_equal : nextIs (stepOn 0x8015 (withRegs [(0, 7#8), (1, 7#8), (15, 9#8)]))
    (fun t => t.getV 0 == 0#8 && t.getV 15 == 0#8) = true := by decide
/-- V-ALU7. -/
theorem test_subReg_wraps : nextIs (stepOn 0x8015 (withRegs [(0, 3#8), (1, 5#8)]))
    (fun t => t.getV 0 == 0xFE#8 && t.getV 15 == 0#8) = true := by decide
/-- V-ALU11. -/
theorem test_shr : nextIs (stepOn 0x8016 (withRegs [(0, 3#8), (1, 0xF0#8)]))
    (fun t => t.getV 0 == 1#8 && t.getV 1 == 0xF0#8 && t.getV 15 == 1#8) = true := by decide
/-- V-ALU9. -/
theorem test_subn : nextIs (stepOn 0x8017 (withRegs [(0, 3#8), (1, 5#8)]))
    (fun t => t.getV 0 == 2#8 && t.getV 15 == 1#8) = true := by decide
/-- V-ALU13: 0x80, not 1. -/
theorem test_shl : nextIs (stepOn 0x801E (withRegs [(0, 0x81#8), (1, 0x0F#8)]))
    (fun t => t.getV 0 == 2#8 && t.getV 15 == 0x80#8) = true := by decide
/-- V-ALU15. -/
theorem test_shl_VF : nextIs (stepOn 0x8FFE (withRegs [(15, 0xFF#8)])) (fun t => t.getV 15 == 0x80#8) = true := by decide
/-- V-ALU24, for every value of the draw. -/
theorem test_rnd_mask_zero :
    ∃ t, exec (.rnd 5 0#8) (withRegs [(5, 9#8)]) = .next t ∧ t.getV 5 = 0#8 ∧ t.rndDraws = 1 :=
  ⟨_, rfl, BitVec.and_zero, rfl⟩

/-! ### Display -/

/-- V-DSP2. -/
theorem test_cls : nextIs (stepOn 0x0CE0 { State.reset with fb := Display.clear.set 0 0x60#64 })
    (fun t => t.fb == Display.clear && t.dirty && t.fault == none) = true := by decide
/-- A sprite of the bytes `rows` at 0x300, the display `fb`, and `I = 0x300`. -/
def sprite (rows : List Byte) (fb : Display) (s : State) : State :=
  { s.writeBytes (rows.zipIdx.map (fun p => (dataAddr 0x300#12 p.2, p.1))) with i := 0x300#12, fb := fb }
/-- V-DSP3: wrap at the bottom-right corner. -/
theorem test_drw_wrap : nextIs (stepOn 0xD012 (sprite [0xC0#8, 0x80#8] Display.clear (withRegs [(0, 62#8), (1, 31#8)])))
    (fun t => rowsAre t.fb [(0, 0x4000000000000000#64), (31, 0xC000000000000000#64)] &&
      t.getV 15 == 0#8 && t.dirty) = true := by decide
/-- V-DSP4: clip at the same place. -/
theorem test_drw_clip : nextIs (stepOn 0xD012
      { sprite [0xC0#8, 0x80#8] Display.clear (withRegs [(0, 62#8), (1, 31#8)]) with config := ⟨.clip, defaultFont⟩ })
    (fun t => rowsAre t.fb [(31, 0xC000000000000000#64)] && t.getV 15 == 0#8 && t.dirty) = true := by decide
/-- V-DSP9: a collision. -/
theorem test_drw_collision : nextIs (stepOn 0xD011 (sprite [0xF0#8] (Display.clear.set 0 0x408#64) State.reset))
    (fun t => rowsAre t.fb [(0, 0x407#64)] && t.getV 15 == 1#8) = true := by decide
/-- V-DSP11: the glyph of the digit 0, read from the font region. -/
theorem test_drw_font : nextIs (stepOn 0xD015 State.reset)
    (fun t => rowsAre t.fb [(0, 0xF#64), (1, 0x9#64), (2, 0x9#64), (3, 0x9#64), (4, 0xF#64)]) = true := by decide

/-! ### Keys and timers -/

/-- V-KEY1. -/
theorem test_skp : nextIs (stepOn 0xE09E (withKeys (withRegs [(0, 0x1A#8)]) [10])) (fun t => t.pc == 0x204#12) = true := by
  decide
/-- V-KEY2. -/
theorem test_sknp : nextIs (stepOn 0xE0A1 (withKeys (withRegs [(0, 0x1A#8)]) [10])) (fun t => t.pc == 0x202#12) = true := by
  decide
/-- V-KEY5: polling goes back and ticks. -/
theorem test_ldVxK_none : nextIs (stepOn 0xF30A { State.reset with dt := 9#8 })
    (fun t => t.pc == 0x200#12 && t.getV 3 == 0#8 && t.dt == 8#8) = true := by decide
/-- V-KEY7: the lowest pressed key. -/
theorem test_ldVxK : nextIs (stepOn 0xF30A (withKeys State.reset [9, 7]))
    (fun t => t.pc == 0x202#12 && t.getV 3 == 7#8) = true := by decide
/-- V-KEY11. -/
theorem test_ldVxDt : nextIs (stepOn 0xF107 { State.reset with dt := 2#8 })
    (fun t => t.getV 1 == 2#8 && t.dt == 1#8) = true := by decide
/-- V-KEY8. -/
theorem test_ldDtVx : nextIs (stepOn 0xF015 (withRegs [(0, 3#8)])) (fun t => t.dt == 2#8) = true := by decide
/-- V-KEY9. -/
theorem test_ldDtVx_zero : nextIs (stepOn 0xF015 { State.reset with dt := 5#8 }) (fun t => t.dt == 0#8) = true := by decide
/-- V-KEY12. -/
theorem test_ldStVx : nextIs (stepOn 0xF018 (withRegs [(0, 0xFF#8)])) (fun t => t.st == 0xFE#8 && t.dt == 0#8) = true := by
  decide

/-! ### Index and memory -/

/-- V-MEM1. -/
theorem test_ldI : nextIs (stepOn 0xAFFF State.reset) (fun t => t.i == 0xFFF#12) = true := by decide
/-- V-MEM2. -/
theorem test_addI_carry : nextIs (stepOn 0xF11E { withRegs [(1, 1#8)] with i := 0xFFF#12 })
    (fun t => t.i == 0#12 && t.getV 15 == 1#8) = true := by decide
/-- V-MEM4: the old VF is the addend. -/
theorem test_addI_VF : nextIs (stepOn 0xFF1E { withRegs [(15, 0xF0#8)] with i := 0xF10#12 })
    (fun t => t.i == 0#12 && t.getV 15 == 1#8) = true := by decide
/-- V-MEM6. -/
theorem test_ldF : nextIs (stepOn 0xF129 (withRegs [(1, 0xFF#8)])) (fun t => t.i == 0x4FB#12) = true := by decide
/-- V-MEM9: the stores wrap and overwrite the font. -/
theorem test_ldB_wraps : nextIs (stepOn 0xF033 { withRegs [(0, 255#8)] with i := 0xFFE#12 })
    (fun t => t.readByte 0xFFE#12 == 2#8 && t.readByte 0xFFF#12 == 5#8 && t.readByte 0x000#12 == 5#8 &&
      t.i == 0xFFE#12) = true := by decide
/-- V-MEM11. -/
theorem test_ldMemVx : nextIs (stepOn 0xF155 { withRegs [(0, 0xAA#8), (1, 0xBB#8), (2, 0xCC#8)] with i := 0xFFF#12 })
    (fun t => t.readByte 0xFFF#12 == 0xAA#8 && t.readByte 0x000#12 == 0xBB#8 && t.readByte 0x001#12 == 0x90#8 &&
      t.i == 0x001#12) = true := by decide
/-- V-MEM13. -/
theorem test_ldVxMem : nextIs (stepOn 0xFF65 State.reset)
    (fun t => t.v == #v[0xF0#8, 0x90#8, 0x90#8, 0x90#8, 0xF0#8, 0x20#8, 0x60#8, 0x20#8, 0x20#8, 0x70#8, 0xF0#8, 0x10#8,
      0xF0#8, 0x80#8, 0xF0#8, 0xF0#8] && t.i == 0x010#12) = true := by decide
/-- Storing what an unlisted address reads as lists nothing (20_memory.md R31; log 26). -/
theorem test_memory_canonical : (State.reset.writeByte 0x300#12 1#8).writeByte 0x300#12 0#8 = State.reset := by decide

/-! ### Host transactions -/

/-- V-HOST3. -/
theorem test_load_too_large :
    ∃ b : List Byte, b.length = 0xE01 ∧ State.reset.transact (.load b) = (State.reset, .loadError .tooLarge) :=
  ⟨List.replicate 0xE01 0#8, List.length_replicate, by
    simp only [State.transact, State.load, List.length_replicate, maxProgramLength]; rfl⟩
/-- P5's image, bytes 0 and 7. -/
theorem test_load : (match State.reset.load [0x60#8, 0x12#8, 0x61#8, 0x08#8, 0xA2#8, 0x08#8, 0xF1#8, 0x55#8] with
    | .ok t => t.readByte 0x200#12 == 0x60#8 && t.readByte 0x207#12 == 0x55#8 && t.pc == 0x200#12
    | .error _ => false) = true := by decide
/-- V-HOST6. -/
theorem test_setKey : ((State.reset.setKey 3 true).setKey 3 false).keyDown 3 = false ∧
    (State.reset.setKey 3 true).keyDown 3 = true ∧ State.reset.setKey 16 true = State.reset := by decide
/-- 10_state.md R27: a step before the first reset has no meaning. -/
theorem test_before_reset : (System.unreset Config.default).transact .step = (.unreset Config.default, .noMeaning) := by
  decide

/-! ### Witnesses: for each statement with hypotheses, a state and operands that meet them -/

theorem witness_DecodeOfEncode : WellFormed (.sys 0x123#12) = true := by decide
theorem witness_EncodeOfDecode : decode 0x5231#16 = .ok (.seReg 2 3) ∧ encode (.seReg 2 3) ≠ 0x5231#16 := by decide
theorem witness_ResetGives : State.reset.hostReset = State.reset ∧ 0x04F#12 < 80#12 ∧ 80 ≤ (0x050#12 : Addr).toNat := by
  decide
theorem witness_StepKeepsMemory : State.reset.wf ∧ ∃ t, step State.reset = .next t := ⟨rfl, _, rfl⟩
theorem witness_TransactionsKeep : (System.running State.reset).wf ∧ (System.unreset Config.default).wf := ⟨rfl, trivial⟩
theorem witness_StepRuns : decode (BitVec.ofNat 16 (256 * ((State.reset.withFetchWord 16 0x1200).readByte 0x200#12).toNat +
    ((State.reset.withFetchWord 16 0x1200).readByte 0x201#12).toNat)) = .ok (.jp 0x200#12) := by decide
theorem witness_StepReports :
    decode (State.reset.withFetchWord 16 0x8018).fetchedWord = .error (.unknownOpcode 0x8018#16) := by decide
/-- A step that answers a next state, for the statements about every such step; it reports a fault (SYS 0). -/
theorem witness_step_faulting : nextIs (step State.reset) (fun t => t.fault != none) = true := by decide
/-- Steps that change VF, a stored byte by each store, FB, the stack, PC, `I`, and each timer other than by the tick. -/
theorem witness_writers :
    nextIs (stepOn 0x6F01 State.reset) (fun t => t.getV vF != 0#8) = true ∧
    nextIs (stepOn 0xF033 { withRegs [(0, 255#8)] with i := 0xFFE#12 }) (fun t => t.readByte 0#12 != 0xF0#8) = true ∧
    nextIs (stepOn 0xFF55 { withRegs [(15, 1#8)] with i := 0xFF1#12 }) (fun t => t.readByte 0#12 != 0xF0#8) = true ∧
    nextIs (stepOn 0xD001 State.reset) (fun t => t.fb != Display.clear) = true ∧
    nextIs (stepOn 0x2300 State.reset) (fun t => t.sp != 0 && t.pc != 0x202#12) = true ∧
    nextIs (stepOn 0xA001 State.reset) (fun t => t.i != 0#12) = true ∧
    nextIs (stepOn 0xF015 (withRegs [(0, 3#8)])) (fun t => t.dt.toNat != 0 - 1) = true ∧
    nextIs (stepOn 0xF018 (withRegs [(0, 3#8)])) (fun t => t.st.toNat != 0 - 1) = true := by decide
theorem witness_DeadStack : ∀ k : Fin 16, k.val < ({ State.reset with sp := 1 } : State).sp.val →
    (Vector.replicate 16 0x000#12 |>.set 1 0x456#12)[k] = State.reset.stack[k] := by decide
theorem witness_JumpToSelf : decode (State.reset.withFetchWord 16 0x1200).fetchedWord = .ok (.jp 0x200#12) := by decide
theorem witness_StoredInstruction : ∃ (s : State) (x : Reg), 1 ≤ x.val ∧ s.i = s.pc :=
  ⟨{ State.reset with i := 0x200#12 }, 1, by decide⟩
theorem witness_CallRet_clauses : ({ State.reset with sp := 15 } : State).sp.val < 16 ∧
    ({ State.reset with sp := 16 } : State).sp.val = 16 ∧ 0 < ({ State.reset with sp := 1 } : State).sp.val ∧
    State.reset.sp.val = 0 := by decide
theorem witness_ReturnComesBack : ∃ u t, State.reset.sp.val < 16 ∧ exec (.call 0x300#12) State.reset = .next u ∧
    exec .ret u = .next t := ⟨_, _, by decide, rfl, rfl⟩
theorem witness_DrawTwice : ∃ t u, exec (.drw 0 1 1#4) State.reset = .next t ∧ t.getV 0 = State.reset.getV 0 ∧
    t.getV 1 = State.reset.getV 1 ∧ exec (.drw 0 1 1#4) t = .next u := ⟨_, _, rfl, by decide, by decide, rfl⟩
theorem witness_DrawCollides :
    nextIs (exec (.drw 0 1 1#4) { State.reset with fb := Display.clear.set 0 1#64 }) (fun t => t.getV 15 == 1#8) = true ∧
    nextIs (exec (.drw 0 1 0#4) { State.reset with fb := Display.clear.set 0 1#64 }) (fun t => t.getV 15 == 0#8) = true := by decide
theorem witness_SkipTests : (10 : KeyIndex).val = ((withRegs [(0, 0x1A#8)]).getV 0).toNat % 16 := by decide
theorem witness_WaitForKey : (withKeys State.reset [9, 7]).keyDown 7 = true ∧
    (∀ j : KeyIndex, j < 7 → (withKeys State.reset [9, 7]).keyDown j = false) ∧
    (∀ k : KeyIndex, State.reset.keyDown k = false) := by decide
theorem witness_SetTimers : (State.reset.withFetchWord 16 0xF015).fetchedWord = wordXNN 0xF#4 0 0x15#8 ∧
    (State.reset.withFetchWord 16 0xF518).fetchedWord = wordXNN 0xF#4 5 0x18#8 := by decide
theorem witness_Load : ([] : List Byte).length ≤ 0xE00 ∧ (List.replicate 0xE00 0#8).length ≤ 0xE00 ∧
    0xE00 < (List.replicate 0xE01 0#8).length :=
  ⟨by decide, by rw [List.length_replicate], by rw [List.length_replicate]; decide⟩
/-- An image loaded before the reset is gone after it, also beyond the end of a shorter second image. -/
theorem witness_LoadResetLoad : (match (System.running State.reset).transactAll
      [.load [0x60#8, 0x12#8, 0x61#8], .reset, .load [0x12#8]] with
    | .running t => t.readByte 0x200#12 == 0x12#8 && t.readByte 0x201#12 == 0#8 && t.readByte 0x202#12 == 0#8
    | .unreset _ => false) = true ∧ [0x12#8].length ≤ 0xE00 ∧ 0x050 ≤ (0x050#12 : Addr).toNat ∧
    ∀ k, k < [0x12#8].length → (0x201#12 : Addr).toNat ≠ 0x200 + k := by decide
theorem witness_SetKey : 16 ≤ 16 ∧ (15 : KeyIndex).val = 15 := by decide

end Sys2Proof.Tests
end

section
/-! PROOFS. The reset values (spec 10_state.md R26; 70_reset_and_hazards.md R170): what each accessor reads right after
reset, under any parameters. The host's reset and `State.reset` differ from `State.resetWith` at most in the count of draws,
which no accessor reads. -/

namespace Sys2Proof.Machine

variable (c : Config)

/-! ### Reset memory -/

theorem unlistedByte_of_lt (a : Nat) (h : a < 80) : unlistedByte c a = c.font[a] := dif_pos h

theorem unlistedByte_of_ge (a : Nat) (h : 80 ≤ a) : unlistedByte c a = 0#8 := dif_neg (by omega)

theorem resetWith_readByte (a : Addr) : (State.resetWith c).readByte a = unlistedByte c a.toNat := rfl

/-! ### The other accessors after reset -/

@[simp] theorem resetWith_getV (r : Reg) : (State.resetWith c).getV r = 0#8 := Vector.getElem_replicate r.isLt

@[simp] theorem resetWith_stackEntry (k : Fin 16) : (State.resetWith c).stackEntry k = 0x000#12 :=
  Vector.getElem_replicate k.isLt

@[simp] theorem resetWith_keyDown (k : KeyIndex) : (State.resetWith c).keyDown k = false :=
  Vector.getElem_replicate k.isLt

@[simp] theorem resetWith_cell (a : Nat) : (State.resetWith c).cell a = false := cell_clear a

/-! ### The two resets -/

/-- Each reset is `State.resetWith` of some parameters, up to the count of draws (log 22). -/
theorem reset_eq_resetWith {s t : State} (h : t = s.hostReset ∨ t = State.reset) :
    ∃ (c : Config) (draws : Nat), t = { State.resetWith c with rndDraws := draws } := by
  rcases h with rfl | rfl
  · exact ⟨s.config, s.rndDraws, rfl⟩
  · exact ⟨Config.default, 0, rfl⟩

/-- Settles O6: both resets are `State.resetWith` up to the count of draws, and the accessors' reset laws give each row of
R26. -/
theorem resetGivesEveryPieceItsValue : Obligations.ResetGivesEveryPieceItsValue := by
  intro s t h
  obtain ⟨c, draws, rfl⟩ := reset_eq_resetWith h
  refine ⟨resetWith_getV c, rfl, rfl, rfl, rfl, rfl, resetWith_stackEntry c, ?font, ?above, resetWith_cell c, rfl,
    resetWith_keyDown c⟩
  case font => exact fun a ha => (resetWith_readByte c a).trans (unlistedByte_of_lt c a.toNat ha)
  case above => exact fun a ha => (resetWith_readByte c a).trans (unlistedByte_of_ge c a.toNat ha)

end Sys2Proof.Machine
end

section
/-! PROOFS. The two jumps to an address (spec 40_cycle_and_control.md R78, R84): each is a write of PC, so its frame is the
frame of `State.setPc`, and its encoding is read back by the field laws of format NNN. -/

namespace Sys2Proof.Machine

open Sys2Proof.Laws

/-- A write of PC changes nothing else; the frame of every jump and skip. -/
theorem setPc_frame (s : State) (a : Addr) : Frame s (s.setPc a) [] [.pc] [] where
  regs r _ := setPc_getV s a r
  pc h := absurd (List.mem_singleton_self _) h
  i _ := setPc_i s a
  dt _ := setPc_dt s a
  st _ := setPc_st s a
  stack _ := ⟨setPc_sp s a, setPc_stack s a⟩
  display _ := setPc_fb s a
  dirty _ := setPc_dirty s a
  fault _ := setPc_fault s a
  draws _ := setPc_rndDraws s a
  bytes p _ := setPc_readByte s a p
  key := setPc_key s a
  config := setPc_config s a

/-! ### JP nnn (R78) -/

theorem decode_wordNNN_jp (nnn : Addr) : decode (wordNNN 0x1#4 nnn) = .ok (.jp nnn) := by
  simp only [decode, wordNNN_op, wordNNN_nnn]

theorem exec_jp (nnn : Addr) (s : State) : exec (.jp nnn) s = .next (s.setPc nnn) := rfl

/-- Settles O25: JP writes nnn to PC, and a write of PC changes nothing else. -/
theorem jumpSetsPC : Obligations.JumpSetsPC := by
  intro nnn s
  exact ⟨decode_wordNNN_jp nnn, s.setPc nnn, exec_jp nnn s, setPc_pc s nnn, setPc_frame s nnn⟩

/-! ### JP V0, nnn (R84) -/

theorem decode_wordNNN_jpV0 (nnn : Addr) : decode (wordNNN 0xB#4 nnn) = .ok (.jpV0 nnn) := by
  simp only [decode, wordNNN_op, wordNNN_nnn]

theorem exec_jpV0 (nnn : Addr) (s : State) :
    exec (.jpV0 nnn) s = .next (s.setPc (offsetTarget nnn (s.getV 0))) := rfl

/-- The offset is unsigned and the sum is reduced modulo 4096. -/
theorem offsetTarget_toNat (nnn : Addr) (v0 : Byte) : (offsetTarget nnn v0).toNat = (nnn.toNat + v0.toNat) % 4096 := by
  have widened : (v0.setWidth 12).toNat = v0.toNat := BitVec.toNat_setWidth_of_le (by decide)
  rw [offsetTarget, BitVec.toNat_add, widened]

/-- Settles O31: the target written to PC is the sum of nnn and V0 modulo 4096, and a write of PC changes nothing else. -/
theorem offsetJumpAddsV0 : Obligations.OffsetJumpAddsV0 := by
  intro nnn s
  exact ⟨decode_wordNNN_jpV0 nnn, s.setPc (offsetTarget nnn (s.getV 0)), exec_jpV0 nnn s,
    offsetTarget_toNat nnn (s.getV 0), setPc_frame s _⟩

end Sys2Proof.Machine
end

section
/-! PROOFS. Register load and arithmetic (spec 41_alu.md R90, R91, R96, R97): what a register write, alone or followed by the
flag, leaves unchanged; what the two flags say; and how the words of family 8 decode. -/

namespace Sys2Proof

open Machine

/-! ### Frames compose -/

/-- A value kept by a change outside `l` and by a second change outside `l'` is kept by both outside `l ++ l'`. -/
theorem unchanged_trans {ι α : Type} {p : ι} {l l' : List ι} {a b c : α} (first : p ∉ l → b = a) (second : p ∉ l' → c = b)
    (h : p ∉ l ++ l') : c = a :=
  have ⟨hl, hl'⟩ := not_or.mp (mt List.mem_append.mpr h)
  (second hl').trans (first hl)

theorem Frame.trans {s t u : State} {regs regs' : List Reg} {parts parts' : List Part} {bytes bytes' : List Addr}
    (first : Frame s t regs parts bytes) (second : Frame t u regs' parts' bytes') :
    Frame s u (regs ++ regs') (parts ++ parts') (bytes ++ bytes') where
  regs r := unchanged_trans (first.regs r) (second.regs r)
  pc := unchanged_trans first.pc second.pc
  i := unchanged_trans first.i second.i
  dt := unchanged_trans first.dt second.dt
  st := unchanged_trans first.st second.st
  stack h := ⟨unchanged_trans (fun k => (first.stack k).1) (fun k => (second.stack k).1) h,
    unchanged_trans (fun k => (first.stack k).2) (fun k => (second.stack k).2) h⟩
  display := unchanged_trans first.display second.display
  dirty := unchanged_trans first.dirty second.dirty
  fault := unchanged_trans first.fault second.fault
  draws := unchanged_trans first.draws second.draws
  bytes a := unchanged_trans (first.bytes a) (second.bytes a)
  key := second.key.trans first.key
  config := second.config.trans first.config

end Sys2Proof

namespace Sys2Proof.Machine

open Sys2Proof.Laws

/-! ### Register writes -/

/-- A register write changes that register and nothing else. -/
theorem setV_frame (s : State) (x : Reg) (b : Byte) : Frame s (s.setV x b) [x] [] [] where
  regs r h := setV_getV_other s x r b (List.ne_of_not_mem_cons h)
  pc _ := setV_pc s x b
  i _ := setV_i s x b
  dt _ := setV_dt s x b
  st _ := setV_st s x b
  stack _ := ⟨setV_sp s x b, setV_stack s x b⟩
  display _ := setV_fb s x b
  dirty _ := setV_dirty s x b
  fault _ := setV_fault s x b
  draws _ := setV_rndDraws s x b
  bytes p _ := setV_readByte s x b p
  key := setV_key s x b
  config := setV_config s x b

/-- A result and a flag change the destination and VF: two register writes in a row (R103). -/
theorem setVThenFlag_frame (s : State) (x : Reg) (result flag : Byte) :
    Frame s (s.setVThenFlag x result flag) [x, vF] [] [] :=
  (setV_frame s x result).trans (setV_frame (s.setV x result) vF flag)

/-- A destination other than VF keeps the result when the flag is written after it. -/
theorem setVThenFlag_getV_result (s : State) (x : Reg) (result flag : Byte) (h : x ≠ vF) :
    (s.setVThenFlag x result flag).getV x = result := by
  rw [setVThenFlag_getV, if_neg h, if_pos rfl]

/-! ### The flags and the difference -/

theorem flagOf_decide (p : Prop) [Decidable p] : flagOf (decide p) = if p then 1#8 else 0#8 := by
  by_cases h : p <;> simp [flagOf, h]

theorem carryFlag_eq (a b : Byte) : carryFlag a b = if a.toNat + b.toNat > 0xFF then 1#8 else 0#8 :=
  flagOf_decide _

theorem greaterFlag_eq (a b : Byte) : greaterFlag a b = if a.toNat > b.toNat then 1#8 else 0#8 :=
  flagOf_decide _

/-- The difference of two bytes is the integer difference reduced modulo 256, which is not negative. -/
theorem byte_sub_toNat (a b : Byte) : ((a - b).toNat : Int) = (a.toNat - b.toNat : Int) % 256 := by
  have ha := a.isLt
  have hb := b.isLt
  rw [BitVec.toNat_sub]
  omega

/-! ### LD Vx, nn and ADD Vx, nn (R90, R91) -/

theorem decode_wordXNN_ldImm (x : Reg) (nn : Byte) : decode (wordXNN 0x6#4 x nn) = .ok (.ldImm x nn) := by
  simp only [decode, wordXNN_op, wordXNN_x, wordXNN_nn]

theorem decode_wordXNN_addImm (x : Reg) (nn : Byte) : decode (wordXNN 0x7#4 x nn) = .ok (.addImm x nn) := by
  simp only [decode, wordXNN_op, wordXNN_x, wordXNN_nn]

theorem exec_ldImm (x : Reg) (nn : Byte) (s : State) : exec (.ldImm x nn) s = .next (s.setV x nn) := rfl

theorem exec_addImm (x : Reg) (nn : Byte) (s : State) :
    exec (.addImm x nn) s = .next (s.setV x (s.getV x + nn)) := rfl

/-- Settles O33: LD Vx, nn is one register write. -/
theorem loadImmediateSetsVx : Obligations.LoadImmediateSetsVx := by
  intro x nn s
  exact ⟨decode_wordXNN_ldImm x nn, s.setV x nn, exec_ldImm x nn s, setV_getV_same s x nn, setV_frame s x nn⟩

/-- Settles O34: ADD Vx, nn is one register write, of the sum of two bytes; VF is in its frame. -/
theorem addImmediateLeavesTheFlag : Obligations.AddImmediateLeavesTheFlag := by
  intro x nn s
  refine ⟨decode_wordXNN_addImm x nn, s.setV x (s.getV x + nn), exec_addImm x nn s, ?sum, setV_frame s x _⟩
  case sum => rw [setV_getV_same, BitVec.toNat_add]

/-! ### ADD Vx, Vy and SUB Vx, Vy (R96, R97) -/

/-- A word of family 8 decodes by its last nibble. -/
theorem decode_wordXYN_family8 (x y : Reg) (n : BitVec 4) :
    decode (wordXYN 0x8#4 x y n) = decode8 (wordXYN 0x8#4 x y n) := by
  simp only [decode, wordXYN_op]

theorem decode_wordXYN_addReg (x y : Reg) : decode (wordXYN 0x8#4 x y 0x4#4) = .ok (.addReg x y) := by
  simp [decode_wordXYN_family8, decode8, wordXYN_maskF00F]

theorem decode_wordXYN_subReg (x y : Reg) : decode (wordXYN 0x8#4 x y 0x5#4) = .ok (.subReg x y) := by
  simp [decode_wordXYN_family8, decode8, wordXYN_maskF00F]

theorem exec_addReg (x y : Reg) (s : State) :
    exec (.addReg x y) s =
      .next (s.setVThenFlag x (s.getV x + s.getV y) (carryFlag (s.getV x) (s.getV y))) := rfl

theorem exec_subReg (x y : Reg) (s : State) :
    exec (.subReg x y) s =
      .next (s.setVThenFlag x (s.getV x - s.getV y) (greaterFlag (s.getV x) (s.getV y))) := rfl

/-- Settles O37: the carry of the old values is written last, so VF holds it whatever x is, and another destination keeps
the sum. -/
theorem addSetsCarry : Obligations.AddSetsCarry := by
  intro x y s
  refine ⟨decode_wordXYN_addReg x y, _, exec_addReg x y s, ?flag, ?sum, setVThenFlag_frame s x _ _⟩
  case flag => exact (setVThenFlag_getV_flag s x _ _).trans (carryFlag_eq _ _)
  case sum =>
    intro hx
    rw [setVThenFlag_getV_result s x _ _ hx, BitVec.toNat_add]

/-- Settles O38: the comparison of the old values is written last, so VF holds it whatever x is, and another destination
keeps the difference. -/
theorem subSetsStrictlyGreater : Obligations.SubSetsStrictlyGreater := by
  intro x y s
  refine ⟨decode_wordXYN_subReg x y, _, exec_subReg x y s, ?flag, ?difference, setVThenFlag_frame s x _ _⟩
  case flag => exact (setVThenFlag_getV_flag s x _ _).trans (greaterFlag_eq _ _)
  case difference =>
    intro hx
    rw [setVThenFlag_getV_result s x _ _ hx]
    exact byte_sub_toNat (s.getV x) (s.getV y)

end Sys2Proof.Machine
end

section
/-! PROOFS. The two timer loads (spec 43_keys_timers.md R124, R125): each is a write of one timer, so its frame is the frame
of that write, and the step it stands in ends with the tick, which counts the loaded value down. -/

namespace Sys2Proof.Machine

open Sys2Proof.Laws

/-! ### Timer writes -/

/-- A write of DT changes nothing else. -/
theorem setDt_frame (s : State) (b : Byte) : Frame s (s.setDt b) [] [.dt] [] where
  regs r _ := setDt_getV s b r
  pc _ := setDt_pc s b
  i _ := setDt_i s b
  dt h := absurd (List.mem_singleton_self _) h
  st _ := setDt_st s b
  stack _ := ⟨setDt_sp s b, setDt_stack s b⟩
  display _ := setDt_fb s b
  dirty _ := setDt_dirty s b
  fault _ := setDt_fault s b
  draws _ := setDt_rndDraws s b
  bytes p _ := setDt_readByte s b p
  key := setDt_key s b
  config := setDt_config s b

/-- A write of ST changes nothing else. -/
theorem setSt_frame (s : State) (b : Byte) : Frame s (s.setSt b) [] [.st] [] where
  regs r _ := setSt_getV s b r
  pc _ := setSt_pc s b
  i _ := setSt_i s b
  dt _ := setSt_dt s b
  st h := absurd (List.mem_singleton_self _) h
  stack _ := ⟨setSt_sp s b, setSt_stack s b⟩
  display _ := setSt_fb s b
  dirty _ := setSt_dirty s b
  fault _ := setSt_fault s b
  draws _ := setSt_rndDraws s b
  bytes p _ := setSt_readByte s b p
  key := setSt_key s b
  config := setSt_config s b

/-! ### Words of family F, and the step around an instruction that completes -/

/-- A word of family F decodes by its low byte. -/
theorem decode_wordXNN_familyF (x : Reg) (nn : Byte) : decode (wordXNN 0xF#4 x nn) = decodeF (wordXNN 0xF#4 x nn) := by
  simp only [decode, wordXNN_op]
  rfl

/-- Where the fetched word decodes to an instruction that completes, the step is its effect followed by the tick. -/
theorem step_next_of_decode {s u : State} {i : Instr} (hd : decode s.fetchedWord = .ok i)
    (he : exec i s.enterExecute = .next u) : step s = .next u.tick := by
  rw [step_of_decode s i hd, he, finishStep]

/-! ### LD DT, Vx (R124) -/

theorem decode_wordXNN_ldDtVx (x : Reg) : decode (wordXNN 0xF#4 x 0x15#8) = .ok (.ldDtVx x) := by
  simp [decode_wordXNN_familyF, decodeF, wordXNN_maskF0FF]

theorem exec_ldDtVx (x : Reg) (s : State) : exec (.ldDtVx x) s = .next (s.setDt (s.getV x)) := rfl

/-- Settles O48: LD DT, Vx is one write of DT, and the tick of the same step counts the value written down. -/
theorem setDelayTimerThenTick : Obligations.SetDelayTimerThenTick := by
  intro x s
  refine ⟨decode_wordXNN_ldDtVx x, ⟨_, exec_ldDtVx x s, setDt_dt s _, setDt_frame s _⟩, ?step⟩
  case step =>
    intro fetched
    have decoded : decode s.fetchedWord = .ok (.ldDtVx x) := fetched ▸ decode_wordXNN_ldDtVx x
    refine ⟨_, step_next_of_decode decoded (exec_ldDtVx x s.enterExecute), ?_⟩
    rw [tick_dt, setDt_dt, countDown_toNat, enterExecute_getV]

/-! ### LD ST, Vx (R125) -/

theorem decode_wordXNN_ldStVx (x : Reg) : decode (wordXNN 0xF#4 x 0x18#8) = .ok (.ldStVx x) := by
  simp [decode_wordXNN_familyF, decodeF, wordXNN_maskF0FF]

theorem exec_ldStVx (x : Reg) (s : State) : exec (.ldStVx x) s = .next (s.setSt (s.getV x)) := rfl

/-- Settles O49: LD ST, Vx is one write of ST, and the tick of the same step counts the value written down. -/
theorem setSoundTimerThenTick : Obligations.SetSoundTimerThenTick := by
  intro x s
  refine ⟨decode_wordXNN_ldStVx x, ⟨_, exec_ldStVx x s, setSt_st s _, setSt_frame s _⟩, ?step⟩
  case step =>
    intro fetched
    have decoded : decode s.fetchedWord = .ok (.ldStVx x) := fetched ▸ decode_wordXNN_ldStVx x
    refine ⟨_, step_next_of_decode decoded (exec_ldStVx x s.enterExecute), ?_⟩
    rw [tick_st, setSt_st, countDown_toNat, enterExecute_getV]

end Sys2Proof.Machine
end

section
/-! PROOFS. The load of the index register (spec 44_index_memory.md R130): one write of `I`, so its frame is the frame of
`State.setI`, and its encoding is read back by the field laws of format NNN. -/

namespace Sys2Proof.Machine

open Sys2Proof.Laws

/-- A write of `I` changes nothing else. -/
theorem setI_frame (s : State) (a : Addr) : Frame s (s.setI a) [] [.i] [] where
  regs r _ := setI_getV s a r
  pc _ := setI_pc s a
  i h := absurd (List.mem_singleton_self _) h
  dt _ := setI_dt s a
  st _ := setI_st s a
  stack _ := ⟨setI_sp s a, setI_stack s a⟩
  display _ := setI_fb s a
  dirty _ := setI_dirty s a
  fault _ := setI_fault s a
  draws _ := setI_rndDraws s a
  bytes p _ := setI_readByte s a p
  key := setI_key s a
  config := setI_config s a

/-! ### LD I, nnn (R130) -/

theorem decode_wordNNN_ldI (nnn : Addr) : decode (wordNNN 0xA#4 nnn) = .ok (.ldI nnn) := by
  simp only [decode, wordNNN_op, wordNNN_nnn]

theorem exec_ldI (nnn : Addr) (s : State) : exec (.ldI nnn) s = .next (s.setI nnn) := rfl

/-- Settles O50: LD I, nnn writes nnn to `I`, and a write of `I` changes nothing else. -/
theorem loadIndexSetsI : Obligations.LoadIndexSetsI := by
  intro nnn s
  exact ⟨decode_wordNNN_ldI nnn, s.setI nnn, exec_ldI nnn s, setI_i s nnn, setI_frame s nnn⟩

end Sys2Proof.Machine
end

section
/-! PROOFS. The load that is too large (spec 60_exceptions.md R145): `State.load` answers an error and no state, and the
transaction hands the host the state it began with. -/

namespace Sys2Proof.Machine

theorem load_of_length_gt (s : State) {bytes : List Byte} (h : maxProgramLength < bytes.length) :
    s.load bytes = .error .tooLarge :=
  if_pos h

/-- A load that fails is aborted as a whole: the state stays and the error is the reply. -/
theorem transact_load_of_error {s : State} {bytes : List Byte} {e : LoadError} (h : s.load bytes = .error e) :
    s.transact (.load bytes) = (s, .loadError e) := by
  simp only [State.transact, h]

/-- Settles O57: an image longer than `maxProgramLength` makes `State.load` fail, and a failed load leaves the state. -/
theorem tooLargeLoadChangesNothing : Obligations.TooLargeLoadChangesNothing := by
  intro s bytes tooLong
  exact transact_load_of_error (load_of_length_gt s tooLong)

end Sys2Proof.Machine
end

section
/-! PROOFS. The decoder (spec 30_encoding.md R50 to R63): the canonical word of each instruction is read back, and
a decoded word is its canonical word up to the ignored bits. -/

namespace Sys2Proof.Machine

open Sys2Proof.Laws

/-! ### The canonical words, row by row -/

theorem decode_wordXNN_family0 (ignored : Reg) (nn : Byte) :
    decode (wordXNN 0x0#4 ignored nn) = decode0 (wordXNN 0x0#4 ignored nn) := by
  simp only [decode, wordXNN_op]

theorem decode_wordXNN_familyE (x : Reg) (nn : Byte) : decode (wordXNN 0xE#4 x nn) = decodeE (wordXNN 0xE#4 x nn) := by
  simp only [decode, wordXNN_op]

theorem decode_wordXNN_cls (ignored : Reg) : decode (wordXNN 0x0#4 ignored 0xE0#8) = .ok .cls := by
  simp [decode_wordXNN_family0, decode0, wordXNN_maskF0FF]

theorem decode_wordXNN_ret (ignored : Reg) : decode (wordXNN 0x0#4 ignored 0xEE#8) = .ok .ret := by
  simp [decode_wordXNN_family0, decode0, wordXNN_maskF0FF]

theorem decode_wordNNN_call (nnn : Addr) : decode (wordNNN 0x2#4 nnn) = .ok (.call nnn) := by
  simp only [decode, wordNNN_op, wordNNN_nnn]

theorem decode_wordXNN_seImm (x : Reg) (nn : Byte) : decode (wordXNN 0x3#4 x nn) = .ok (.seImm x nn) := by
  simp only [decode, wordXNN_op, wordXNN_x, wordXNN_nn]

theorem decode_wordXNN_sneImm (x : Reg) (nn : Byte) : decode (wordXNN 0x4#4 x nn) = .ok (.sneImm x nn) := by
  simp only [decode, wordXNN_op, wordXNN_x, wordXNN_nn]

theorem decode_wordXYN_seReg (x y : Reg) (ignored : BitVec 4) :
    decode (wordXYN 0x5#4 x y ignored) = .ok (.seReg x y) := by
  simp only [decode, wordXYN_op, wordXYN_x, wordXYN_y]

theorem decode_wordXYN_sneReg (x y : Reg) (ignored : BitVec 4) :
    decode (wordXYN 0x9#4 x y ignored) = .ok (.sneReg x y) := by
  simp only [decode, wordXYN_op, wordXYN_x, wordXYN_y]

theorem decode_wordXYN_ldReg (x y : Reg) : decode (wordXYN 0x8#4 x y 0x0#4) = .ok (.ldReg x y) := by
  simp [decode_wordXYN_family8, decode8, wordXYN_maskF00F]

theorem decode_wordXYN_orReg (x y : Reg) : decode (wordXYN 0x8#4 x y 0x1#4) = .ok (.orReg x y) := by
  simp [decode_wordXYN_family8, decode8, wordXYN_maskF00F]

theorem decode_wordXYN_andReg (x y : Reg) : decode (wordXYN 0x8#4 x y 0x2#4) = .ok (.andReg x y) := by
  simp [decode_wordXYN_family8, decode8, wordXYN_maskF00F]

theorem decode_wordXYN_xorReg (x y : Reg) : decode (wordXYN 0x8#4 x y 0x3#4) = .ok (.xorReg x y) := by
  simp [decode_wordXYN_family8, decode8, wordXYN_maskF00F]

theorem decode_wordXYN_shr (x y : Reg) : decode (wordXYN 0x8#4 x y 0x6#4) = .ok (.shr x y) := by
  simp [decode_wordXYN_family8, decode8, wordXYN_maskF00F]

theorem decode_wordXYN_subn (x y : Reg) : decode (wordXYN 0x8#4 x y 0x7#4) = .ok (.subn x y) := by
  simp [decode_wordXYN_family8, decode8, wordXYN_maskF00F]

theorem decode_wordXYN_shl (x y : Reg) : decode (wordXYN 0x8#4 x y 0xE#4) = .ok (.shl x y) := by
  simp [decode_wordXYN_family8, decode8, wordXYN_maskF00F]

theorem decode_wordXNN_rnd (x : Reg) (nn : Byte) : decode (wordXNN 0xC#4 x nn) = .ok (.rnd x nn) := by
  simp only [decode, wordXNN_op, wordXNN_x, wordXNN_nn]

theorem decode_wordXYN_drw (x y : Reg) (n : BitVec 4) : decode (wordXYN 0xD#4 x y n) = .ok (.drw x y n) := by
  simp only [decode, wordXYN_op, wordXYN_x, wordXYN_y, wordXYN_n]

theorem decode_wordXNN_skp (x : Reg) : decode (wordXNN 0xE#4 x 0x9E#8) = .ok (.skp x) := by
  simp [decode_wordXNN_familyE, decodeE, wordXNN_maskF0FF]

theorem decode_wordXNN_sknp (x : Reg) : decode (wordXNN 0xE#4 x 0xA1#8) = .ok (.sknp x) := by
  simp [decode_wordXNN_familyE, decodeE, wordXNN_maskF0FF]

theorem decode_wordXNN_ldVxDt (x : Reg) : decode (wordXNN 0xF#4 x 0x07#8) = .ok (.ldVxDt x) := by
  simp [decode_wordXNN_familyF, decodeF, wordXNN_maskF0FF]

theorem decode_wordXNN_ldVxK (x : Reg) : decode (wordXNN 0xF#4 x 0x0A#8) = .ok (.ldVxK x) := by
  simp [decode_wordXNN_familyF, decodeF, wordXNN_maskF0FF]

theorem decode_wordXNN_addI (x : Reg) : decode (wordXNN 0xF#4 x 0x1E#8) = .ok (.addI x) := by
  simp [decode_wordXNN_familyF, decodeF, wordXNN_maskF0FF]

theorem decode_wordXNN_ldF (x : Reg) : decode (wordXNN 0xF#4 x 0x29#8) = .ok (.ldF x) := by
  simp [decode_wordXNN_familyF, decodeF, wordXNN_maskF0FF]

theorem decode_wordXNN_ldB (x : Reg) : decode (wordXNN 0xF#4 x 0x33#8) = .ok (.ldB x) := by
  simp [decode_wordXNN_familyF, decodeF, wordXNN_maskF0FF]

theorem decode_wordXNN_ldMemVx (x : Reg) : decode (wordXNN 0xF#4 x 0x55#8) = .ok (.ldMemVx x) := by
  simp [decode_wordXNN_familyF, decodeF, wordXNN_maskF0FF]

theorem decode_wordXNN_ldVxMem (x : Reg) : decode (wordXNN 0xF#4 x 0x65#8) = .ok (.ldVxMem x) := by
  simp [decode_wordXNN_familyF, decodeF, wordXNN_maskF0FF]

/-! ### Words that fit a mask -/

theorem word_of_maskF0FF {w : Word} {o : BitVec 4} {nn : Byte} (h : w &&& 0xF0FF#16 = wordXNN o 0 nn) :
    w = wordXNN o (Word.x w) nn := by
  have key : wordXNN (Word.op w) 0 (Word.nn w) = wordXNN o 0 nn := by
    rw [← h, word_eq_XNN w, wordXNN_maskF0FF, wordXNN_op, wordXNN_nn]
    rfl
  have op : Word.op w = o := by simpa using congrArg Word.op key
  have low : Word.nn w = nn := by simpa using congrArg Word.nn key
  rw [← op, ← low]
  exact word_eq_XNN w

theorem wordXYN_and_maskF00F (o : BitVec 4) (x y : Reg) (n : BitVec 4) :
    wordXYN o x y n &&& 0xF00F#16 = wordXYN o 0 0 n := by
  apply BitVec.eq_of_getLsbD_eq
  intro k hk
  simp only [wordXYN, BitVec.getLsbD_and, BitVec.getLsbD_append]
  interval_cases k <;> simp

theorem word_of_maskF00F {w : Word} {o n : BitVec 4} (h : w &&& 0xF00F#16 = wordXYN o 0 0 n) :
    w = wordXYN o (Word.x w) (Word.y w) n := by
  have key : wordXYN (Word.op w) 0 0 (Word.n w) = wordXYN o 0 0 n := by
    rw [← h, word_eq_XYN w, wordXYN_and_maskF00F, wordXYN_op, wordXYN_n]
  have op : Word.op w = o := by simpa using congrArg Word.op key
  have low : Word.n w = n := by simpa using congrArg Word.n key
  rw [← op, ← low]
  exact word_eq_XYN w

theorem op_of_maskF000 {w : Word} {o : BitVec 4} (h : w &&& 0xF000#16 = wordNNN o 0x000#12) : Word.op w = o := by
  have key : wordNNN (Word.op w) 0x000#12 = wordNNN o 0x000#12 := by
    rw [← h, word_eq_NNN w, wordNNN_maskF000, wordNNN_op]
    rfl
  simpa using congrArg Word.op key

/-! ### The slot SYS: family 0 with a low byte that is neither E0 nor EE (R57, R58) -/

theorem nn_wordNNN (o : BitVec 4) (nnn : Addr) : Word.nn (wordNNN o nnn) = nnn.setWidth 8 := by
  apply BitVec.eq_of_getLsbD_eq
  intro k hk
  simp only [Word.nn, wordNNN, BitVec.getLsbD_extractLsb', BitVec.getLsbD_append, BitVec.getLsbD_setWidth]
  simp [hk, show k < 12 by omega]

theorem decode_wordNNN_sys (nnn : Addr) (h : WellFormed (.sys nnn) = true) :
    decode (wordNNN 0x0#4 nnn) = .ok (.sys nnn) := by
  have low (b : Byte) (key : wordNNN 0x0#4 nnn &&& 0xF0FF#16 = wordXNN 0x0#4 0 b) : nnn.setWidth 8 = b := by
    rw [← nn_wordNNN 0x0#4 nnn, word_of_maskF0FF key, wordXNN_nn]
  have wf : nnn.setWidth 8 ≠ 0xE0#8 ∧ nnn.setWidth 8 ≠ 0xEE#8 := by simpa [WellFormed, sysOperandOk] using h
  have notCls : ¬ wordNNN 0x0#4 nnn &&& 0xF0FF#16 = 0x00E0#16 := fun key => wf.1 (low _ key)
  have notRet : ¬ wordNNN 0x0#4 nnn &&& 0xF0FF#16 = 0x00EE#16 := fun key => wf.2 (low _ key)
  simp only [decode, wordNNN_op, decode0, notCls, notRet, if_false, wordNNN_nnn]

/-- Every canonical word of a well-formed instruction is read back. -/
theorem decode_encode (i : Instr) (h : WellFormed i = true) : decode (encode i) = .ok i := by
  cases i
  case cls => exact decode_wordXNN_cls 0
  case ret => exact decode_wordXNN_ret 0
  case jp nnn => exact decode_wordNNN_jp nnn
  case call nnn => exact decode_wordNNN_call nnn
  case seImm x nn => exact decode_wordXNN_seImm x nn
  case sneImm x nn => exact decode_wordXNN_sneImm x nn
  case seReg x y => exact decode_wordXYN_seReg x y _
  case ldImm x nn => exact decode_wordXNN_ldImm x nn
  case addImm x nn => exact decode_wordXNN_addImm x nn
  case ldReg x y => exact decode_wordXYN_ldReg x y
  case orReg x y => exact decode_wordXYN_orReg x y
  case andReg x y => exact decode_wordXYN_andReg x y
  case xorReg x y => exact decode_wordXYN_xorReg x y
  case addReg x y => exact decode_wordXYN_addReg x y
  case subReg x y => exact decode_wordXYN_subReg x y
  case shr x y => exact decode_wordXYN_shr x y
  case subn x y => exact decode_wordXYN_subn x y
  case shl x y => exact decode_wordXYN_shl x y
  case sneReg x y => exact decode_wordXYN_sneReg x y _
  case ldI nnn => exact decode_wordNNN_ldI nnn
  case jpV0 nnn => exact decode_wordNNN_jpV0 nnn
  case rnd x nn => exact decode_wordXNN_rnd x nn
  case drw x y n => exact decode_wordXYN_drw x y n
  case skp x => exact decode_wordXNN_skp x
  case sknp x => exact decode_wordXNN_sknp x
  case ldVxDt x => exact decode_wordXNN_ldVxDt x
  case ldVxK x => exact decode_wordXNN_ldVxK x
  case ldDtVx x => exact decode_wordXNN_ldDtVx x
  case ldStVx x => exact decode_wordXNN_ldStVx x
  case addI x => exact decode_wordXNN_addI x
  case ldF x => exact decode_wordXNN_ldF x
  case ldB x => exact decode_wordXNN_ldB x
  case ldMemVx x => exact decode_wordXNN_ldMemVx x
  case ldVxMem x => exact decode_wordXNN_ldVxMem x
  case sys nnn => exact decode_wordNNN_sys nnn h

/-- The two bytes of an instruction, whatever follows them, decode as its word does. -/
theorem decodeBytes_encodeBytes (i : Instr) (rest : List Byte) (h : decode (encode i) = .ok i) :
    decodeBytes (encodeBytes i ++ rest) = .ok (i, rest) := by
  simp only [encodeBytes, List.cons_append, List.nil_append, decodeBytes, word_of_its_bytes, h]

/-- Settles O1: each row's canonical word is read back, and its two bytes make up that word. -/
theorem decodeOfEncodeIsTheInstruction : Obligations.DecodeOfEncodeIsTheInstruction := by
  intro i wf
  exact ⟨decode_encode i wf, fun rest => decodeBytes_encodeBytes i rest (decode_encode i wf)⟩

/-! ### Inverting the decoder -/

theorem wordNNN_of_op {w : Word} {o : BitVec 4} (h : Word.op w = o) : wordNNN o (Word.nnn w) = w :=
  h ▸ (word_eq_NNN w).symm

theorem wordXNN_of_op {w : Word} {o : BitVec 4} (h : Word.op w = o) : wordXNN o (Word.x w) (Word.nn w) = w :=
  h ▸ (word_eq_XNN w).symm

theorem wordXYN_of_op {w : Word} {o : BitVec 4} (h : Word.op w = o) :
    wordXYN o (Word.x w) (Word.y w) (Word.n w) = w :=
  h ▸ (word_eq_XYN w).symm

/-- `i` is well-formed and its canonical word is `w` up to the bits that decoding ignores. -/
def ReadFrom (w : Word) (i : Instr) : Prop := WellFormed i = true ∧ encode i = w &&& readBits i

theorem readFrom_of_encode_eq {w : Word} {i : Instr} (wf : WellFormed i = true) (allBits : readBits i = 0xFFFF#16)
    (canonical : encode i = w) : ReadFrom w i :=
  ⟨wf, by rw [allBits, word_maskFFFF, canonical]⟩

/-- The two register comparisons ignore the last nibble of their word. -/
theorem wordXYN_zero_eq_mask (o : BitVec 4) (x y : Reg) (n : BitVec 4) :
    wordXYN o x y 0x0#4 = wordXYN o x y n &&& 0xFFF0#16 := by
  apply BitVec.eq_of_getLsbD_eq
  intro k hk
  simp only [wordXYN, BitVec.getLsbD_and, BitVec.getLsbD_append]
  interval_cases k <;> simp

theorem decode0_readFrom {w : Word} {i : Instr} (op : Word.op w = 0x0#4) (h : decode0 w = .ok i) : ReadFrom w i := by
  simp only [decode0] at h
  split_ifs at h with cls ret
  · cases h; exact ⟨rfl, cls.symm⟩
  · cases h; exact ⟨rfl, ret.symm⟩
  · cases h
    have wf : sysOperandOk (Word.nnn w) = true := by
      have low : (Word.nnn w).setWidth 8 = Word.nn w := by rw [← nn_wordNNN 0x0#4, wordNNN_of_op op]
      have key (b : Byte) (nn : Word.nn w = b) : w &&& 0xF0FF#16 = wordXNN 0x0#4 0 b := by
        rw [← wordXNN_of_op op, nn]
        exact wordXNN_maskF0FF _ _ _
      simpa [sysOperandOk, low] using ⟨fun nn => cls (key _ nn), fun nn => ret (key _ nn)⟩
    exact readFrom_of_encode_eq wf rfl (wordNNN_of_op op)

theorem decode8_readFrom {w : Word} {i : Instr} (h : decode8 w = .ok i) : ReadFrom w i := by
  simp only [decode8] at h
  split_ifs at h with key key key key key key key key key <;> cases h <;>
    exact readFrom_of_encode_eq rfl rfl (word_of_maskF00F key).symm

theorem decodeE_readFrom {w : Word} {i : Instr} (h : decodeE w = .ok i) : ReadFrom w i := by
  simp only [decodeE] at h
  split_ifs at h with key key <;> cases h <;>
    exact readFrom_of_encode_eq rfl rfl (word_of_maskF0FF key).symm

theorem decodeF_readFrom {w : Word} {i : Instr} (h : decodeF w = .ok i) : ReadFrom w i := by
  simp only [decodeF] at h
  split_ifs at h with key key key key key key key key key <;> cases h <;>
    exact readFrom_of_encode_eq rfl rfl (word_of_maskF0FF key).symm

theorem decode_readFrom {w : Word} {i : Instr} (h : decode w = .ok i) : ReadFrom w i := by
  unfold decode at h
  split at h
  case h_1 op => exact decode0_readFrom op h
  case h_9 => exact decode8_readFrom h
  case h_15 => exact decodeE_readFrom h
  case h_16 => exact decodeF_readFrom h
  case h_2 op | h_3 op | h_11 op | h_12 op =>
    cases h
    exact readFrom_of_encode_eq rfl rfl (wordNNN_of_op op)
  case h_4 op | h_5 op | h_7 op | h_8 op | h_13 op =>
    cases h
    exact readFrom_of_encode_eq rfl rfl (wordXNN_of_op op)
  case h_14 op =>
    cases h
    exact readFrom_of_encode_eq rfl rfl (wordXYN_of_op op)
  case h_6 op | h_10 op =>
    cases h
    exact ⟨rfl, (wordXYN_zero_eq_mask _ _ _ _).trans (congrArg (· &&& 0xFFF0#16) (wordXYN_of_op op))⟩

/-- Settles O2: every branch of the decoder answers an instruction read from the word. -/
theorem encodeOfDecodeClearsIgnoredBits : Obligations.EncodeOfDecodeClearsIgnoredBits := by
  intro w i h
  exact decode_readFrom h

end Sys2Proof.Machine
end

section
/-! PROOFS. The decoder against the opcode map R57 and the table of UNKNOWN words R58. -/

namespace Sys2Proof.Machine

open Sys2Proof.Laws

/-! ### A decoded word fits its row, and a word that fits a row decodes to it -/

/-- Decoding reads every bit of the row's mask. -/
theorem rowMask_le_readBits (i : Instr) : readBits i &&& (rowOf i).mask = (rowOf i).mask := by
  cases i
  case cls | ret => exact BitVec.and_self
  case seReg | sneReg => exact (by decide : 0xFFF0#16 &&& 0xF000#16 = 0xF000#16)
  all_goals exact BitVec.allOnes_and

theorem fits_of_decode {w : Word} {i : Instr} (h : decode w = .ok i) : w &&& (rowOf i).mask = (rowOf i).value := by
  obtain ⟨-, canonical⟩ := decode_readFrom h
  have fits : encode i &&& (rowOf i).mask = (rowOf i).value := (FitsItsRow.all i).1
  rw [canonical, BitVec.and_assoc, rowMask_le_readBits] at fits
  exact fits

theorem decode_eq_decode0 {w : Word} (op : Word.op w = 0x0#4) : decode w = decode0 w := by simp only [decode, op]

theorem decode0_ok (w : Word) : ∃ i, decode0 w = .ok i := by
  simp only [decode0]
  split_ifs <;> exact ⟨_, rfl⟩

theorem decode_of_maskF0FF {w : Word} {o : BitVec 4} {nn : Byte} {i : Reg → Instr}
    (canonical : ∀ x, decode (wordXNN o x nn) = .ok (i x)) (h : w &&& 0xF0FF#16 = wordXNN o 0 nn) :
    decode w = .ok (i (Word.x w)) := by
  rw [← canonical, ← word_of_maskF0FF h]

theorem decode_of_maskF00F {w : Word} {o n : BitVec 4} {i : Reg → Reg → Instr}
    (canonical : ∀ x y, decode (wordXYN o x y n) = .ok (i x y)) (h : w &&& 0xF00F#16 = wordXYN o 0 0 n) :
    decode w = .ok (i (Word.x w) (Word.y w)) := by
  rw [← canonical, ← word_of_maskF00F h]

theorem decode_NNN_of_maskF000 {w : Word} {o : BitVec 4} {i : Addr → Instr}
    (canonical : ∀ nnn, decode (wordNNN o nnn) = .ok (i nnn)) (h : w &&& 0xF000#16 = wordNNN o 0x000#12) :
    decode w = .ok (i (Word.nnn w)) := by
  rw [← canonical, wordNNN_of_op (op_of_maskF000 h)]

theorem decode_XNN_of_maskF000 {w : Word} {o : BitVec 4} {i : Reg → Byte → Instr}
    (canonical : ∀ x nn, decode (wordXNN o x nn) = .ok (i x nn)) (h : w &&& 0xF000#16 = wordNNN o 0x000#12) :
    decode w = .ok (i (Word.x w) (Word.nn w)) := by
  rw [← canonical, wordXNN_of_op (op_of_maskF000 h)]

theorem decode_XYN_of_maskF000 {w : Word} {o : BitVec 4} {i : Reg → Reg → BitVec 4 → Instr}
    (canonical : ∀ x y n, decode (wordXYN o x y n) = .ok (i x y n)) (h : w &&& 0xF000#16 = wordNNN o 0x000#12) :
    decode w = .ok (i (Word.x w) (Word.y w) (Word.n w)) := by
  rw [← canonical, wordXYN_of_op (op_of_maskF000 h)]

/-- A word that fits a row is the word of an instruction: of that row, or for row 35 of one of the first two
rows (R57). -/
theorem decode_of_fits {w : Word} (j : Instr) (h : w &&& (rowOf j).mask = (rowOf j).value) :
    ∃ i, decode w = .ok i := by
  cases j
  case cls => exact ⟨_, decode_of_maskF0FF decode_wordXNN_cls h⟩
  case ret => exact ⟨_, decode_of_maskF0FF decode_wordXNN_ret h⟩
  case jp => exact ⟨_, decode_NNN_of_maskF000 decode_wordNNN_jp h⟩
  case call => exact ⟨_, decode_NNN_of_maskF000 decode_wordNNN_call h⟩
  case seImm => exact ⟨_, decode_XNN_of_maskF000 decode_wordXNN_seImm h⟩
  case sneImm => exact ⟨_, decode_XNN_of_maskF000 decode_wordXNN_sneImm h⟩
  case seReg => exact ⟨_, decode_XYN_of_maskF000 decode_wordXYN_seReg h⟩
  case ldImm => exact ⟨_, decode_XNN_of_maskF000 decode_wordXNN_ldImm h⟩
  case addImm => exact ⟨_, decode_XNN_of_maskF000 decode_wordXNN_addImm h⟩
  case ldReg => exact ⟨_, decode_of_maskF00F decode_wordXYN_ldReg h⟩
  case orReg => exact ⟨_, decode_of_maskF00F decode_wordXYN_orReg h⟩
  case andReg => exact ⟨_, decode_of_maskF00F decode_wordXYN_andReg h⟩
  case xorReg => exact ⟨_, decode_of_maskF00F decode_wordXYN_xorReg h⟩
  case addReg => exact ⟨_, decode_of_maskF00F decode_wordXYN_addReg h⟩
  case subReg => exact ⟨_, decode_of_maskF00F decode_wordXYN_subReg h⟩
  case shr => exact ⟨_, decode_of_maskF00F decode_wordXYN_shr h⟩
  case subn => exact ⟨_, decode_of_maskF00F decode_wordXYN_subn h⟩
  case shl => exact ⟨_, decode_of_maskF00F decode_wordXYN_shl h⟩
  case sneReg => exact ⟨_, decode_XYN_of_maskF000 decode_wordXYN_sneReg h⟩
  case ldI => exact ⟨_, decode_NNN_of_maskF000 decode_wordNNN_ldI h⟩
  case jpV0 => exact ⟨_, decode_NNN_of_maskF000 decode_wordNNN_jpV0 h⟩
  case rnd => exact ⟨_, decode_XNN_of_maskF000 decode_wordXNN_rnd h⟩
  case drw => exact ⟨_, decode_XYN_of_maskF000 decode_wordXYN_drw h⟩
  case skp => exact ⟨_, decode_of_maskF0FF decode_wordXNN_skp h⟩
  case sknp => exact ⟨_, decode_of_maskF0FF decode_wordXNN_sknp h⟩
  case ldVxDt => exact ⟨_, decode_of_maskF0FF decode_wordXNN_ldVxDt h⟩
  case ldVxK => exact ⟨_, decode_of_maskF0FF decode_wordXNN_ldVxK h⟩
  case ldDtVx => exact ⟨_, decode_of_maskF0FF decode_wordXNN_ldDtVx h⟩
  case ldStVx => exact ⟨_, decode_of_maskF0FF decode_wordXNN_ldStVx h⟩
  case addI => exact ⟨_, decode_of_maskF0FF decode_wordXNN_addI h⟩
  case ldF => exact ⟨_, decode_of_maskF0FF decode_wordXNN_ldF h⟩
  case ldB => exact ⟨_, decode_of_maskF0FF decode_wordXNN_ldB h⟩
  case ldMemVx => exact ⟨_, decode_of_maskF0FF decode_wordXNN_ldMemVx h⟩
  case ldVxMem => exact ⟨_, decode_of_maskF0FF decode_wordXNN_ldVxMem h⟩
  case sys nnn =>
    obtain ⟨i, hi⟩ := decode0_ok w
    exact ⟨i, (decode_eq_decode0 (op_of_maskF000 h)).trans hi⟩

theorem decode_error {w : Word} {e : DecodeError} (h : decode w = .error e) : e = .unknownOpcode w := by
  have family0 (h : decode0 w = .error e) : e = .unknownOpcode w := by
    obtain ⟨i, hi⟩ := decode0_ok w
    rw [hi] at h
    cases h
  have family8 (h : decode8 w = .error e) : e = .unknownOpcode w := by
    simp only [decode8] at h
    split_ifs at h
    cases h
    rfl
  have familyE (h : decodeE w = .error e) : e = .unknownOpcode w := by
    simp only [decodeE] at h
    split_ifs at h
    cases h
    rfl
  have familyF (h : decodeF w = .error e) : e = .unknownOpcode w := by
    simp only [decodeF] at h
    split_ifs at h
    cases h
    rfl
  unfold decode at h
  split at h
  any_goals contradiction
  · exact family0 h
  · exact family8 h
  · exact familyE h
  · exact familyF h

/-- The word of CLS, in the mask form of R57. -/
theorem decode_cls_iff (w : Word) : decode w = .ok .cls ↔ w &&& 0xF0FF#16 = 0x00E0#16 :=
  ⟨fun h => fits_of_decode h,
    fun h => decode_of_maskF0FF decode_wordXNN_cls h⟩

/-- The word of RET, in the mask form of R57. -/
theorem decode_ret_iff (w : Word) : decode w = .ok .ret ↔ w &&& 0xF0FF#16 = 0x00EE#16 :=
  ⟨fun h => fits_of_decode h,
    fun h => decode_of_maskF0FF decode_wordXNN_ret h⟩

/-- Settles O3: a decoded word fits its row, a word of rows 1 and 2 decodes to those and not to row 35, and a word that
fits a row is not rejected. -/
theorem decoderFollowsTheOpcodeMap : Obligations.DecoderFollowsTheOpcodeMap := by
  intro w
  cases hd : decode w with
  | ok i =>
    refine ⟨fits_of_decode hd, ?_⟩
    rintro ⟨nnn, rfl⟩
    constructor
    · intro key
      rw [(decode_cls_iff w).mpr key] at hd
      cases hd
    · intro key
      rw [(decode_ret_iff w).mpr key] at hd
      cases hd
  | error e =>
    refine ⟨decode_error hd, fun j fits => ?_⟩
    obtain ⟨i, hi⟩ := decode_of_fits j fits
    rw [hd] at hi
    cases hi

/-! ### The UNKNOWN words (R58) -/

theorem op_toNat (w : Word) : (Word.op w).toNat = w.toNat / 4096 := by
  simp [Word.op, BitVec.extractLsb'_toNat, Nat.shiftRight_eq_div_pow]
  omega

theorem nn_toNat (w : Word) : (Word.nn w).toNat = w.toNat % 256 := by
  simp [Word.nn, BitVec.extractLsb'_toNat]

theorem n_toNat (w : Word) : (Word.n w).toNat = w.toNat % 16 := by
  simp [Word.n, BitVec.extractLsb'_toNat]

theorem append_toNat {m n : Nat} (a : BitVec m) (b : BitVec n) : (a ++ b).toNat = a.toNat * 2 ^ n + b.toNat := by
  rw [BitVec.toNat_append, ← Nat.shiftLeft_add_eq_or_of_lt b.isLt, Nat.shiftLeft_eq]

theorem maskF0FF_toNat (w : Word) : (w &&& 0xF0FF#16).toNat = w.toNat / 4096 * 4096 + w.toNat % 256 := by
  conv_lhs => rw [word_eq_XNN w, wordXNN_maskF0FF, append_toNat, append_toNat, op_toNat, nn_toNat]
  simp
  omega

theorem maskF00F_toNat (w : Word) : (w &&& 0xF00F#16).toNat = w.toNat / 4096 * 4096 + w.toNat % 16 := by
  conv_lhs => rw [word_eq_XYN w, wordXYN_maskF00F, append_toNat, append_toNat, op_toNat, n_toNat]
  simp
  omega

/-- The decoder answers, if anything, SYS. -/
def NotExecutable (r : Except DecodeError Instr) : Prop := ∀ i, r = .ok i → ∃ nnn, i = .sys nnn

/-- In each family with a secondary key, both sides test the key: the decoder under the mask, R58 as a remainder. -/
theorem notExecutable_decode0_iff {w : Word} (op : w.toNat / 4096 = 0x0) :
    NotExecutable (decode0 w) ↔ unknownWord w = true := by
  simp only [NotExecutable, decode0, unknownWord, op, ← BitVec.toNat_inj, maskF0FF_toNat]
  split_ifs <;> simp at * <;> omega

theorem notExecutable_decode8_iff {w : Word} (op : w.toNat / 4096 = 0x8) :
    NotExecutable (decode8 w) ↔ unknownWord w = true := by
  simp only [NotExecutable, decode8, unknownWord, op, ← BitVec.toNat_inj, maskF00F_toNat]
  split_ifs <;> simp at * <;> omega

theorem notExecutable_decodeE_iff {w : Word} (op : w.toNat / 4096 = 0xE) :
    NotExecutable (decodeE w) ↔ unknownWord w = true := by
  simp only [NotExecutable, decodeE, unknownWord, op, ← BitVec.toNat_inj, maskF0FF_toNat]
  split_ifs <;> simp at * <;> omega

theorem notExecutable_decodeF_iff {w : Word} (op : w.toNat / 4096 = 0xF) :
    NotExecutable (decodeF w) ↔ unknownWord w = true := by
  simp only [NotExecutable, decodeF, unknownWord, op, ← BitVec.toNat_inj, maskF0FF_toNat]
  split_ifs <;> simp at * <;> omega

/-- The families whose every word is an instruction hold no UNKNOWN word. -/
theorem unknownWord_of_full_family {w : Word} (h : w.toNat / 4096 ∉ [0x0, 0x8, 0xE, 0xF]) : unknownWord w = false := by
  unfold unknownWord
  split <;> simp_all

theorem notExecutable_decode_iff (w : Word) : NotExecutable (decode w) ↔ unknownWord w = true := by
  have full {i : Instr} (op : w.toNat / 4096 ∉ [0x0, 0x8, 0xE, 0xF]) (executable : ∀ nnn, i ≠ .sys nnn) :
      NotExecutable (.ok i) ↔ unknownWord w = true := by
    simp [NotExecutable, unknownWord_of_full_family op, executable]
  have op_eq {o : BitVec 4} (h : Word.op w = o) : w.toNat / 4096 = o.toNat := by rw [← h, op_toNat]
  unfold decode
  split
  case h_1 op => exact notExecutable_decode0_iff (op_eq op)
  case h_9 op => exact notExecutable_decode8_iff (op_eq op)
  case h_15 op => exact notExecutable_decodeE_iff (op_eq op)
  case h_16 =>
    have last : (Word.op w).toNat = 0xF := by
      have bound := (Word.op w).isLt
      simp only [← BitVec.toNat_inj] at *
      simp at *
      omega
    exact notExecutable_decodeF_iff ((op_toNat w).symm.trans last)
  all_goals next op => exact full (by rw [op_eq op]; decide) nofun

/-- Settles O4: family by family, the branches of the decoder that answer no instruction to execute are the listed
words. -/
theorem unknownWordsAreTheListedOnes : Obligations.UnknownWordsAreTheListedOnes := by
  intro w
  exact notExecutable_decode_iff w

/-- Settles O5: the decoder evaluates on each of the twenty words. -/
theorem exampleWordsDecodeAsPrinted : Obligations.ExampleWordsDecodeAsPrinted := by
  unfold Obligations.ExampleWordsDecodeAsPrinted
  decide

end Sys2Proof.Machine
end

section
/-! PROOFS. The frames of the shared operations, and one equation per instruction: which operations it is made of. -/

namespace Sys2Proof

open Machine

/-- A frame may name more than what changes. -/
theorem Frame.mono {s t : State} {regs regs' : List Reg} {parts parts' : List Part} {bytes bytes' : List Addr}
    (h : Frame s t regs parts bytes) (hr : regs ⊆ regs') (hp : parts ⊆ parts') (hb : bytes ⊆ bytes') :
    Frame s t regs' parts' bytes' where
  regs r hn := h.regs r (mt (@hr r) hn)
  pc hn := h.pc (mt (@hp .pc) hn)
  i hn := h.i (mt (@hp .i) hn)
  dt hn := h.dt (mt (@hp .dt) hn)
  st hn := h.st (mt (@hp .st) hn)
  stack hn := h.stack (mt (@hp .stack) hn)
  display hn := h.display (mt (@hp .display) hn)
  dirty hn := h.dirty (mt (@hp .dirty) hn)
  fault hn := h.fault (mt (@hp .fault) hn)
  draws hn := h.draws (mt (@hp .draws) hn)
  bytes a hn := h.bytes a (mt (@hb a) hn)
  key := h.key
  config := h.config

end Sys2Proof

namespace Sys2Proof.Machine

variable (s : State)

/-! ### Frames of the shared operations -/

/-- Nothing changes. -/
theorem frame_refl (parts : List Part) : Frame s s [] parts [] where
  regs _ _ := rfl
  pc _ := rfl
  i _ := rfl
  dt _ := rfl
  st _ := rfl
  stack _ := ⟨rfl, rfl⟩
  display _ := rfl
  dirty _ := rfl
  fault _ := rfl
  draws _ := rfl
  bytes _ _ := rfl
  key := rfl
  config := rfl

/-- A skip writes at most PC. -/
theorem skipIf_frame (b : Bool) : Frame s (s.skipIf b) [] [.pc] [] := by
  cases b
  · exact frame_refl s _
  · exact setPc_frame s _

/-- Reporting a fault writes the fault output and nothing else (R147). -/
theorem raise_frame (f : EngineFault) : Frame s (s.raise f) [] [.fault] [] where
  regs r _ := raise_getV s f r
  pc _ := raise_pc s f
  i _ := raise_i s f
  dt _ := raise_dt s f
  st _ := raise_st s f
  stack _ := ⟨raise_sp s f, raise_stack s f⟩
  display _ := raise_fb s f
  dirty _ := raise_dirty s f
  fault h := absurd (List.mem_singleton_self _) h
  draws _ := raise_rndDraws s f
  bytes p _ := raise_readByte s f p
  key := raise_key s f
  config := raise_config s f

theorem push_frame (a : Addr) (h : s.sp.val < 16) : Frame s (s.push a h) [] [.stack] [] where
  regs r _ := push_getV s a h r
  pc _ := push_pc s a h
  i _ := push_i s a h
  dt _ := push_dt s a h
  st _ := push_st s a h
  stack hn := absurd (List.mem_singleton_self _) hn
  display _ := push_fb s a h
  dirty _ := push_dirty s a h
  fault _ := push_fault s a h
  draws _ := push_rndDraws s a h
  bytes p _ := push_readByte s a h p
  key := push_key s a h
  config := push_config s a h

theorem pop_frame (h : 0 < s.sp.val) : Frame s (s.pop h).2 [] [.stack] [] where
  regs r _ := pop_getV s h r
  pc _ := pop_pc s h
  i _ := pop_i s h
  dt _ := pop_dt s h
  st _ := pop_st s h
  stack hn := absurd (List.mem_singleton_self _) hn
  display _ := pop_fb s h
  dirty _ := pop_dirty s h
  fault _ := pop_fault s h
  draws _ := pop_rndDraws s h
  bytes p _ := pop_readByte s h p
  key := pop_key s h
  config := pop_config s h

theorem setDisplay_frame (d : Display) : Frame s (s.setDisplay d) [] [.display, .dirty] [] where
  regs r _ := setDisplay_getV s d r
  pc _ := setDisplay_pc s d
  i _ := setDisplay_i s d
  dt _ := setDisplay_dt s d
  st _ := setDisplay_st s d
  stack _ := ⟨setDisplay_sp s d, setDisplay_stack s d⟩
  display h := absurd (by decide) h
  dirty h := absurd (by decide) h
  fault _ := setDisplay_fault s d
  draws _ := setDisplay_rndDraws s d
  bytes p _ := setDisplay_readByte s d p
  key := setDisplay_key s d
  config := setDisplay_config s d

theorem takeRnd_frame : Frame s s.takeRnd [] [.draws] [] where
  regs r _ := takeRnd_getV s r
  pc _ := takeRnd_pc s
  i _ := takeRnd_i s
  dt _ := takeRnd_dt s
  st _ := takeRnd_st s
  stack _ := ⟨takeRnd_sp s, takeRnd_stack s⟩
  display _ := takeRnd_fb s
  dirty _ := takeRnd_dirty s
  fault _ := takeRnd_fault s
  draws h := absurd (List.mem_singleton_self _) h
  bytes p _ := takeRnd_readByte s p
  key := takeRnd_key s
  config := takeRnd_config s

theorem writeBytes_frame (cells : List (Addr × Byte)) : Frame s (s.writeBytes cells) [] [] (cells.map Prod.fst) where
  regs r _ := writeBytes_getV s cells r
  pc _ := writeBytes_pc s cells
  i _ := writeBytes_i s cells
  dt _ := writeBytes_dt s cells
  st _ := writeBytes_st s cells
  stack _ := ⟨writeBytes_sp s cells, writeBytes_stack s cells⟩
  display _ := writeBytes_fb s cells
  dirty _ := writeBytes_dirty s cells
  fault _ := writeBytes_fault s cells
  draws _ := writeBytes_rndDraws s cells
  bytes p h := writeBytes_readByte_other s cells p h
  key := writeBytes_key s cells
  config := writeBytes_config s cells

theorem setRegs_frame (loads : List (Reg × Byte)) : Frame s (s.setRegs loads) (loads.map Prod.fst) [] [] where
  regs r h := setRegs_getV_other s loads r h
  pc _ := setRegs_pc s loads
  i _ := setRegs_i s loads
  dt _ := setRegs_dt s loads
  st _ := setRegs_st s loads
  stack _ := ⟨setRegs_sp s loads, setRegs_stack s loads⟩
  display _ := setRegs_fb s loads
  dirty _ := setRegs_dirty s loads
  fault _ := setRegs_fault s loads
  draws _ := setRegs_rndDraws s loads
  bytes p _ := setRegs_readByte s loads p
  key := setRegs_key s loads
  config := setRegs_config s loads

theorem enterExecute_frame : Frame s s.enterExecute [] [.pc, .dirty, .fault] [] where
  regs r _ := enterExecute_getV s r
  pc h := absurd (by decide) h
  i _ := enterExecute_i s
  dt _ := enterExecute_dt s
  st _ := enterExecute_st s
  stack _ := ⟨enterExecute_sp s, enterExecute_stack s⟩
  display _ := enterExecute_fb s
  dirty h := absurd (by decide) h
  fault h := absurd (by decide) h
  draws _ := enterExecute_rndDraws s
  bytes p _ := enterExecute_readByte s p
  key := enterExecute_key s
  config := enterExecute_config s

theorem tick_frame : Frame s s.tick [] [.dt, .st] [] where
  regs r _ := tick_getV s r
  pc _ := tick_pc s
  i _ := tick_i s
  dt h := absurd (by decide) h
  st h := absurd (by decide) h
  stack _ := ⟨tick_sp s, tick_stack s⟩
  display _ := tick_fb s
  dirty _ := tick_dirty s
  fault _ := tick_fault s
  draws _ := tick_rndDraws s
  bytes p _ := tick_readByte s p
  key := tick_key s
  config := tick_config s

/-! ### What each instruction is made of -/

theorem exec_cls : exec .cls s = .next (s.setDisplay Display.clear) := rfl

theorem exec_ret_of_pos (h : 0 < s.sp.val) : exec .ret s = .next ((s.pop h).2.setPc (s.pop h).1) := dif_pos h

theorem exec_ret_of_empty (h : s.sp.val = 0) : exec .ret s = .next (s.raise .stackUnderflow) := dif_neg (by omega)

theorem exec_call_of_lt (nnn : Addr) (h : s.sp.val < 16) :
    exec (.call nnn) s = .next ((s.push s.pc h).setPc nnn) := dif_pos h

theorem exec_call_of_full (nnn : Addr) (h : s.sp.val = 16) :
    exec (.call nnn) s = .next (s.raise .stackOverflow) := dif_neg (by omega)

theorem exec_seImm (x : Reg) (nn : Byte) : exec (.seImm x nn) s = .next (s.skipIf (s.getV x == nn)) := rfl

theorem exec_sneImm (x : Reg) (nn : Byte) : exec (.sneImm x nn) s = .next (s.skipIf (s.getV x != nn)) := rfl

theorem exec_seReg (x y : Reg) : exec (.seReg x y) s = .next (s.skipIf (s.getV x == s.getV y)) := rfl

theorem exec_sneReg (x y : Reg) : exec (.sneReg x y) s = .next (s.skipIf (s.getV x != s.getV y)) := rfl

theorem exec_ldReg (x y : Reg) : exec (.ldReg x y) s = .next (s.setV x (s.getV y)) := rfl

theorem exec_orReg (x y : Reg) : exec (.orReg x y) s = .next (s.setV x (s.getV x ||| s.getV y)) := rfl

theorem exec_andReg (x y : Reg) : exec (.andReg x y) s = .next (s.setV x (s.getV x &&& s.getV y)) := rfl

theorem exec_xorReg (x y : Reg) : exec (.xorReg x y) s = .next (s.setV x (s.getV x ^^^ s.getV y)) := rfl

theorem exec_shr (x y : Reg) :
    exec (.shr x y) s = .next (s.setVThenFlag x (s.getV x >>> 1) (shiftedOutLow (s.getV x))) := rfl

theorem exec_subn (x y : Reg) :
    exec (.subn x y) s = .next (s.setVThenFlag x (s.getV y - s.getV x) (greaterFlag (s.getV y) (s.getV x))) := rfl

theorem exec_shl (x y : Reg) :
    exec (.shl x y) s = .next (s.setVThenFlag x (s.getV x <<< 1) (shiftedOutHigh (s.getV x))) := rfl

theorem exec_rnd (x : Reg) (nn : Byte) : exec (.rnd x nn) s = .next (s.takeRnd.setV x (s.nextRnd &&& nn)) := rfl

/-- The canvas that DRW Vx, Vy, n leaves. -/
def drawnCanvas (x y : Reg) (n : BitVec 4) : Canvas := drawSprite s (s.getV x).toNat (s.getV y).toNat n.toNat

theorem exec_drw (x y : Reg) (n : BitVec 4) :
    exec (.drw x y n) s =
      .next ((s.setDisplay (drawnCanvas s x y n).fb).setV vF (flagOf (drawnCanvas s x y n).collision)) := rfl

theorem exec_skp (x : Reg) : exec (.skp x) s = .next (s.skipIf (s.keyDown (keyIndexOf (s.getV x)))) := rfl

theorem exec_sknp (x : Reg) : exec (.sknp x) s = .next (s.skipIf (!s.keyDown (keyIndexOf (s.getV x)))) := rfl

theorem exec_ldVxDt (x : Reg) : exec (.ldVxDt x) s = .next (s.setV x s.dt) := rfl

theorem exec_ldVxK_of_some (x : Reg) {k : KeyIndex} (h : s.lowestKey = some k) :
    exec (.ldVxK x) s = .next (s.setV x (BitVec.ofNat 8 k.val)) := by
  simp only [exec, execLdVxK, h]

theorem exec_ldVxK_of_none (x : Reg) (h : s.lowestKey = none) : exec (.ldVxK x) s = .next (s.setPc s.fetchAddress) := by
  simp only [exec, execLdVxK, h]

theorem exec_addI (x : Reg) :
    exec (.addI x) s =
      .next ((s.setI (dataAddr s.i (s.getV x).toNat)).setV vF (indexCarryFlag s.i (s.getV x))) := rfl

theorem exec_ldF (x : Reg) : exec (.ldF x) s = .next (s.setI (fontAddr (s.getV x))) := rfl

theorem exec_ldB (x : Reg) : exec (.ldB x) s = .next (s.writeBytes (digitStores s.i (s.getV x))) := rfl

theorem exec_ldMemVx (x : Reg) :
    exec (.ldMemVx x) s = .next ((s.writeBytes (blockStores s x)).setI (afterBlock s.i x)) := rfl

theorem exec_ldVxMem (x : Reg) :
    exec (.ldVxMem x) s = .next ((s.setRegs (blockLoads s x)).setI (afterBlock s.i x)) := rfl

theorem exec_sys (nnn : Addr) : exec (.sys nnn) s = .next (s.raiseUnknown (encode (.sys nnn))) := rfl

end Sys2Proof.Machine

namespace Sys2Proof

open Machine

/-- The frame of an instruction, seen from the step it stands in. -/
theorem Frame.throughStep {s u : State} {regs : List Reg} {parts : List Part} {bytes : List Addr}
    (h : Frame s.enterExecute u regs parts bytes) :
    Frame s u.tick regs ([.pc, .dt, .st, .dirty, .fault] ++ parts) bytes :=
  (((enterExecute_frame s).trans h).trans (tick_frame u)).mono (by simp) (by intro p; simp; tauto) (by simp)

/-- PC needs no mention where it comes back to its value. -/
theorem Frame.of_pc_eq {s t : State} {regs : List Reg} {parts : List Part} {bytes : List Addr}
    (h : Frame s t regs (.pc :: parts) bytes) (same : t.pc = s.pc) : Frame s t regs parts bytes :=
  have other {p : Part} (ne : p ≠ .pc) (hp : p ∉ parts) : p ∉ .pc :: parts := by simp [ne, hp]
  { regs := h.regs
    pc := fun _ => same
    i := fun hn => h.i (other (by decide) hn)
    dt := fun hn => h.dt (other (by decide) hn)
    st := fun hn => h.st (other (by decide) hn)
    stack := fun hn => h.stack (other (by decide) hn)
    display := fun hn => h.display (other (by decide) hn)
    dirty := fun hn => h.dirty (other (by decide) hn)
    fault := fun hn => h.fault (other (by decide) hn)
    draws := fun hn => h.draws (other (by decide) hn)
    bytes := h.bytes
    key := h.key
    config := h.config }

end Sys2Proof
end

section
/-! PROOFS. What an instruction can write, said once (`exec_effect`): it completes, within its registers, parts and
bytes. Every rule over all instructions (spec 10_state.md R12 to R28, 20_memory.md R36) is read off it. -/

namespace Sys2Proof.Machine

open Sys2Proof.Laws

/-! ### What an instruction names as its destinations -/

/-- The registers an instruction may write. -/
def writtenRegs : Instr → List Reg
  | .ldImm x _ | .addImm x _ | .ldReg x _ | .orReg x _ | .andReg x _ | .xorReg x _ | .rnd x _ | .ldVxDt x
  | .ldVxK x => [x]
  | .addReg x _ | .subReg x _ | .shr x _ | .subn x _ | .shl x _ => [x, vF]
  | .drw _ _ _ | .addI _ => [vF]
  | .ldVxMem x => regsUpTo x
  | _ => []

/-- The parts of the state an instruction may write. -/
def writtenParts : Instr → List Part
  | .cls | .drw _ _ _ => [.display, .dirty]
  | .ret | .call _ => [.pc, .stack, .fault]
  | .jp _ | .jpV0 _ | .seImm _ _ | .sneImm _ _ | .seReg _ _ | .sneReg _ _ | .skp _ | .sknp _ | .ldVxK _ => [.pc]
  | .ldI _ | .addI _ | .ldF _ | .ldMemVx _ | .ldVxMem _ => [.i]
  | .rnd _ _ => [.draws]
  | .ldDtVx _ => [.dt]
  | .ldStVx _ => [.st]
  | .sys _ => [.fault]
  | _ => []

/-- The byte stores an instruction makes, in their order. -/
def byteStores (s : State) : Instr → List (Addr × Byte)
  | .ldB x => digitStores s.i (s.getV x)
  | .ldMemVx x => blockStores s x
  | _ => []

/-- Every instruction completes, changes at most its destinations, and leaves memory as its byte stores do. -/
theorem exec_effect (i : Instr) (s : State) : ∃ t, exec i s = .next t ∧
    Frame s t (writtenRegs i) (writtenParts i) ((byteStores s i).map Prod.fst) ∧
    t.mem = (s.writeBytes (byteStores s i)).mem := by
  cases i
  case cls => exact ⟨_, exec_cls s, setDisplay_frame s _, rfl⟩
  case ret =>
    rcases Nat.eq_zero_or_pos s.sp.val with h | h
    · exact ⟨_, exec_ret_of_empty s h, (raise_frame s _).mono (by simp) (by simp [writtenParts]) (by simp), rfl⟩
    · exact ⟨_, exec_ret_of_pos s h,
        ((pop_frame s h).trans (setPc_frame _ _)).mono (by simp) (by simp [writtenParts]) (by simp), rfl⟩
  case jp nnn => exact ⟨_, exec_jp nnn s, setPc_frame s _, rfl⟩
  case call nnn =>
    rcases Nat.lt_or_ge s.sp.val 16 with h | h
    · exact ⟨_, exec_call_of_lt s nnn h,
        ((push_frame s s.pc h).trans (setPc_frame _ _)).mono (by simp) (by simp [writtenParts]) (by simp), rfl⟩
    · exact ⟨_, exec_call_of_full s nnn (by omega),
        (raise_frame s _).mono (by simp) (by simp [writtenParts]) (by simp), rfl⟩
  case seImm x nn => exact ⟨_, exec_seImm s x nn, skipIf_frame s _, skipIf_mem s _⟩
  case sneImm x nn => exact ⟨_, exec_sneImm s x nn, skipIf_frame s _, skipIf_mem s _⟩
  case seReg x y => exact ⟨_, exec_seReg s x y, skipIf_frame s _, skipIf_mem s _⟩
  case ldImm x nn => exact ⟨_, exec_ldImm x nn s, setV_frame s x _, rfl⟩
  case addImm x nn => exact ⟨_, exec_addImm x nn s, setV_frame s x _, rfl⟩
  case ldReg x y => exact ⟨_, exec_ldReg s x y, setV_frame s x _, rfl⟩
  case orReg x y => exact ⟨_, exec_orReg s x y, setV_frame s x _, rfl⟩
  case andReg x y => exact ⟨_, exec_andReg s x y, setV_frame s x _, rfl⟩
  case xorReg x y => exact ⟨_, exec_xorReg s x y, setV_frame s x _, rfl⟩
  case addReg x y => exact ⟨_, exec_addReg x y s, setVThenFlag_frame s x _ _, rfl⟩
  case subReg x y => exact ⟨_, exec_subReg x y s, setVThenFlag_frame s x _ _, rfl⟩
  case shr x y => exact ⟨_, exec_shr s x y, setVThenFlag_frame s x _ _, rfl⟩
  case subn x y => exact ⟨_, exec_subn s x y, setVThenFlag_frame s x _ _, rfl⟩
  case shl x y => exact ⟨_, exec_shl s x y, setVThenFlag_frame s x _ _, rfl⟩
  case sneReg x y => exact ⟨_, exec_sneReg s x y, skipIf_frame s _, skipIf_mem s _⟩
  case ldI nnn => exact ⟨_, exec_ldI nnn s, setI_frame s _, rfl⟩
  case jpV0 nnn => exact ⟨_, exec_jpV0 nnn s, setPc_frame s _, rfl⟩
  case rnd x nn => exact ⟨_, exec_rnd s x nn, (takeRnd_frame s).trans (setV_frame _ x _), rfl⟩
  case drw x y n => exact ⟨_, exec_drw s x y n, (setDisplay_frame s _).trans (setV_frame _ vF _), rfl⟩
  case skp x => exact ⟨_, exec_skp s x, skipIf_frame s _, skipIf_mem s _⟩
  case sknp x => exact ⟨_, exec_sknp s x, skipIf_frame s _, skipIf_mem s _⟩
  case ldVxDt x => exact ⟨_, exec_ldVxDt s x, setV_frame s x _, rfl⟩
  case ldVxK x =>
    cases h : s.lowestKey with
    | some k =>
      exact ⟨_, exec_ldVxK_of_some s x h, (setV_frame s x _).mono (by simp [writtenRegs]) (by simp) (by simp), rfl⟩
    | none =>
      exact ⟨_, exec_ldVxK_of_none s x h, (setPc_frame s _).mono (by simp) (by simp [writtenParts]) (by simp), rfl⟩
  case ldDtVx x => exact ⟨_, exec_ldDtVx x s, setDt_frame s _, rfl⟩
  case ldStVx x => exact ⟨_, exec_ldStVx x s, setSt_frame s _, rfl⟩
  case addI x => exact ⟨_, exec_addI s x, (setI_frame s _).trans (setV_frame _ vF _), rfl⟩
  case ldF x => exact ⟨_, exec_ldF s x, setI_frame s _, rfl⟩
  case ldB x => exact ⟨_, exec_ldB s x, writeBytes_frame s _, rfl⟩
  case ldMemVx x =>
    exact ⟨_, exec_ldMemVx s x, ((writeBytes_frame s _).trans (setI_frame _ _)).mono (by simp) (by simp [writtenParts])
      (by simp [byteStores]), rfl⟩
  case ldVxMem x =>
    exact ⟨_, exec_ldVxMem s x, ((setRegs_frame s _).trans (setI_frame _ _)).mono
      (by simp [writtenRegs, blockLoads_fst]) (by simp [writtenParts]) (by simp), setRegs_mem s _⟩
  case sys nnn => exact ⟨_, exec_sys s nnn, raise_frame s _, rfl⟩

theorem exec_frame {i : Instr} {s t : State} (h : exec i s = .next t) :
    Frame s t (writtenRegs i) (writtenParts i) ((byteStores s i).map Prod.fst) := by
  obtain ⟨u, hu, frame, -⟩ := exec_effect i s
  cases h.symm.trans hu
  exact frame

theorem exec_mem {i : Instr} {s t : State} (h : exec i s = .next t) : t.mem = (s.writeBytes (byteStores s i)).mem := by
  obtain ⟨u, hu, -, mem⟩ := exec_effect i s
  cases h.symm.trans hu
  exact mem

/-- Settles O12: `exec_effect` names the next state of each instruction. -/
theorem everyInstructionCompletes : Obligations.EveryInstructionCompletes := by
  intro i s
  obtain ⟨t, completes, -⟩ := exec_effect i s
  exact ⟨t, completes⟩

/-- Settles O13: a step runs an instruction, which completes, or reports its word. -/
theorem stepAlwaysAnswersANextState : Obligations.StepAlwaysAnswersANextState := by
  intro s
  cases hd : decode s.fetchedWord with
  | ok i =>
    obtain ⟨t, completes, -⟩ := exec_effect i s.enterExecute
    exact ⟨_, step_next_of_decode hd completes⟩
  | error e => exact ⟨_, step_of_unknown s e hd⟩

/-! ### The writers of each part -/

theorem vF_mem_writtenRegs (i : Instr) : vF ∈ writtenRegs i →
    (∃ x y, i = .addReg x y) ∨ (∃ x y, i = .subReg x y) ∨ (∃ x y, i = .shr x y) ∨ (∃ x y, i = .subn x y) ∨
    (∃ x y, i = .shl x y) ∨ (∃ x y n, i = .drw x y n) ∨ (∃ x, i = .addI x) ∨
    (∃ nn, i = .ldImm vF nn) ∨ (∃ nn, i = .addImm vF nn) ∨ (∃ y, i = .ldReg vF y) ∨ (∃ y, i = .orReg vF y) ∨
    (∃ y, i = .andReg vF y) ∨ (∃ y, i = .xorReg vF y) ∨ (∃ nn, i = .rnd vF nn) ∨ i = .ldVxDt vF ∨
    i = .ldVxK vF ∨ i = .ldVxMem vF := by
  have last (x : Reg) : vF ≤ x ↔ x = vF := by simp only [vF, Fin.le_def, Fin.ext_iff]; omega
  cases i <;> simp [writtenRegs, last, eq_comm]

theorem display_mem_writtenParts (i : Instr) :
    .display ∈ writtenParts i → i = .cls ∨ ∃ x y n, i = .drw x y n := by
  cases i <;> simp [writtenParts]

theorem dirty_mem_writtenParts (i : Instr) :
    .dirty ∈ writtenParts i → i = .cls ∨ ∃ x y n, i = .drw x y n := by
  cases i <;> simp [writtenParts]

theorem stack_mem_writtenParts (i : Instr) : .stack ∈ writtenParts i → i = .ret ∨ ∃ nnn, i = .call nnn := by
  cases i <;> simp [writtenParts]

theorem fault_mem_writtenParts (i : Instr) :
    .fault ∈ writtenParts i → i = .ret ∨ (∃ nnn, i = .call nnn) ∨ ∃ nnn, i = .sys nnn := by
  cases i <;> simp [writtenParts]

theorem dt_mem_writtenParts (i : Instr) : .dt ∈ writtenParts i → ∃ x, i = .ldDtVx x := by
  cases i <;> simp [writtenParts]

theorem st_mem_writtenParts (i : Instr) : .st ∈ writtenParts i → ∃ x, i = .ldStVx x := by
  cases i <;> simp [writtenParts]

theorem i_mem_writtenParts (i : Instr) : .i ∈ writtenParts i →
    (∃ nnn, i = .ldI nnn) ∨ ∃ x, i ∈ [.addI x, .ldF x, .ldMemVx x, .ldVxMem x] := by
  cases i <;> simp [writtenParts]

theorem pc_mem_writtenParts (i : Instr) : .pc ∈ writtenParts i →
    i = .ret ∨ (∃ nnn, i ∈ [.jp nnn, .call nnn, .jpV0 nnn]) ∨ (∃ x nn, i ∈ [.seImm x nn, .sneImm x nn]) ∨
    (∃ x y, i ∈ [.seReg x y, .sneReg x y]) ∨ ∃ x, i ∈ [.skp x, .sknp x, .ldVxK x] := by
  cases i <;> simp [writtenParts]

/-! ### The step around them -/

/-- Every step ends in the tick of a state that the decoded instruction, or the report of the word, has left. -/
theorem step_effect {s t : State} (h : step s = .next t) : ∃ u, t = u.tick ∧
    ((∃ i, decode s.fetchedWord = .ok i ∧ exec i s.enterExecute = .next u) ∨
     (∃ e, decode s.fetchedWord = .error e ∧ u = s.enterExecute.raiseUnknown s.fetchedWord)) := by
  rcases step_inversion s t h with ⟨i, u, hd, hu, rfl⟩ | ⟨e, hd, rfl⟩
  · exact ⟨u, rfl, .inl ⟨i, hd, hu⟩⟩
  · exact ⟨_, rfl, .inr ⟨e, hd, rfl⟩⟩

/-- Settles O18: a register that an instruction does not name is in its frame. -/
theorem onlyTheFlagWritersTouchVF : Obligations.OnlyTheFlagWritersTouchVF := by
  intro s t h changed
  obtain ⟨u, rfl, ⟨i, hd, hu⟩ | ⟨e, -, rfl⟩⟩ := step_effect h
  · exact ⟨i, hd, vF_mem_writtenRegs i (not_imp_comm.mp ((exec_frame hu).regs vF) changed)⟩
  · exact absurd rfl changed

theorem mem_byteStores {s : State} {i : Instr} {a : Addr} (h : a ∈ (byteStores s i).map Prod.fst) :
    (∃ x, i = .ldB x ∧ ∃ k, k < 3 ∧ a.toNat = (s.i.toNat + k) % 4096) ∨
    (∃ x, i = .ldMemVx x ∧ ∃ k, k ≤ x.val ∧ a.toNat = (s.i.toNat + k) % 4096) := by
  cases i
  case ldB x =>
    have three : a = dataAddr s.i 0 ∨ a = dataAddr s.i 1 ∨ a = dataAddr s.i 2 := by
      simpa [byteStores, digitStores] using h
    rcases three with rfl | rfl | rfl
    · exact .inl ⟨x, rfl, 0, by decide, dataAddr_toNat s.i 0⟩
    · exact .inl ⟨x, rfl, 1, by decide, dataAddr_toNat s.i 1⟩
    · exact .inl ⟨x, rfl, 2, by decide, dataAddr_toNat s.i 2⟩
  case ldMemVx x =>
    simp only [byteStores, blockStores_fst, List.mem_map, mem_regsUpTo] at h
    obtain ⟨k, hk, rfl⟩ := h
    exact .inr ⟨x, rfl, k.val, hk, dataAddr_toNat s.i k.val⟩
  all_goals simp [byteStores] at h

/-- Settles O19: a byte at which no store is made is in the instruction's frame. -/
theorem onlyTheTwoStoresChangeMemory : Obligations.OnlyTheTwoStoresChangeMemory := by
  intro s t a h changed
  obtain ⟨u, rfl, ⟨i, hd, hu⟩ | ⟨e, -, rfl⟩⟩ := step_effect h
  · rcases mem_byteStores (not_imp_comm.mp ((exec_frame hu).bytes a) changed) with ⟨x, rfl, stored⟩ | ⟨x, rfl, stored⟩
    · exact .inl ⟨x, hd, stored⟩
    · exact .inr ⟨x, hd, stored⟩
  · exact absurd rfl changed

/-- Settles O20: a part that an instruction does not name is in its frame. -/
theorem eachPartHasItsNamedWriters : Obligations.EachPartHasItsNamedWriters := by
  intro s t h
  obtain ⟨u, rfl, ⟨i, hd, hu⟩ | ⟨e, -, rfl⟩⟩ := step_effect h
  · have frame := exec_frame hu
    simp only [hd, Except.ok.injEq, List.mem_cons, List.not_mem_nil, or_false]
    refine ⟨?display, ?stack, ?i, ?dt, ?st, ?pc, frame.key, frame.config⟩
    case display => exact fun changed => display_mem_writtenParts i (not_imp_comm.mp frame.display changed)
    case stack =>
      exact fun changed => stack_mem_writtenParts i
        (not_imp_comm.mp frame.stack fun same => changed.elim (absurd same.1) (absurd same.2))
    case i =>
      intro changed
      simpa using i_mem_writtenParts i (not_imp_comm.mp frame.i changed)
    case dt =>
      intro changed
      refine dt_mem_writtenParts i (not_imp_comm.mp frame.dt fun same => changed ?_)
      rw [tick_dt, countDown_toNat, same, enterExecute_dt]
    case st =>
      intro changed
      refine st_mem_writtenParts i (not_imp_comm.mp frame.st fun same => changed ?_)
      rw [tick_st, countDown_toNat, same, enterExecute_st]
    case pc =>
      intro changed
      simpa using pc_mem_writtenParts i (not_imp_comm.mp frame.pc changed)
  · exact ⟨absurd rfl, fun changed => changed.elim (absurd rfl) (absurd rfl), absurd rfl,
      absurd (countDown_toNat s.dt), absurd (countDown_toNat s.st), absurd rfl, rfl, rfl⟩

/-! ### The timers (R151) -/

/-- Settles O14: the tick counts down what the instruction has left in the timers. -/
theorem timersTickInEveryStep : Obligations.TimersTickInEveryStep := by
  intro s t h
  obtain ⟨u, rfl, ⟨i, hd, hu⟩ | ⟨e, hd, rfl⟩⟩ := step_effect h
  · rw [hd, tick_dt, tick_st, countDown_toNat, countDown_toNat]
    have frame := exec_frame hu
    cases i
    case ldDtVx x => cases hu; exact ⟨rfl, rfl⟩
    case ldStVx x => cases hu; exact ⟨rfl, rfl⟩
    all_goals
      have dt : u.dt = s.enterExecute.dt := frame.dt (by simp [writtenParts])
      have st : u.st = s.enterExecute.st := frame.st (by simp [writtenParts])
      rw [dt, st]
      exact ⟨rfl, rfl⟩
  · rw [hd]
    exact ⟨countDown_toNat s.dt, countDown_toNat s.st⟩

/-! ### The outputs (R19, R23) -/

theorem exec_dirty {i : Instr} {s t : State} (h : exec i s = .next t) (clear : s.dirty = false) :
    t.dirty = true ↔ i = .cls ∨ ∃ x y n, i = .drw x y n := by
  constructor
  · intro dirty
    refine dirty_mem_writtenParts i (not_imp_comm.mp (exec_frame h).dirty ?_)
    simp [dirty, clear]
  · rintro (rfl | ⟨x, y, n, rfl⟩) <;> cases h <;> rfl

theorem decode_drw_iff (w : Word) : (∃ x y n, decode w = .ok (.drw x y n)) ↔ w &&& 0xF000#16 = 0xD000#16 :=
  ⟨fun ⟨_, _, _, h⟩ => fits_of_decode h, fun h => ⟨_, _, _, decode_XYN_of_maskF000 decode_wordXYN_drw h⟩⟩

theorem decode_call_iff (w : Word) : (∃ nnn, decode w = .ok (.call nnn)) ↔ w &&& 0xF000#16 = 0x2000#16 :=
  ⟨fun ⟨_, h⟩ => fits_of_decode h, fun h => ⟨_, decode_NNN_of_maskF000 decode_wordNNN_call h⟩⟩

/-- Settles O15: the step clears dirty, and only CLS and DRW write it, always to 1. -/
theorem dirtyMarksDisplayInstructions : Obligations.DirtyMarksDisplayInstructions := by
  intro s t h
  rw [← decode_cls_iff, ← decode_drw_iff]
  obtain ⟨u, rfl, ⟨i, hd, hu⟩ | ⟨e, hd, rfl⟩⟩ := step_effect h
  · rw [tick_dirty, exec_dirty hu rfl, hd]
    simp
  · simp [hd]

/-- A fault is reported by `State.raise` alone: the rest of the state is as it was (R147). -/
theorem exec_fault_inversion {i : Instr} {s t : State} (h : exec i s = .next t) (clear : s.fault = none) :
    t.fault = none ∨ ∃ f, t = s.raise f := by
  by_cases written : .fault ∈ writtenParts i
  · rcases fault_mem_writtenParts i written with rfl | ⟨nnn, rfl⟩ | ⟨nnn, rfl⟩
    · rcases execRet_inversion s t h with ⟨hp, rfl⟩ | ⟨-, rfl⟩
      · exact .inl clear
      · exact .inr ⟨_, rfl⟩
    · rcases execCall_inversion nnn s t h with ⟨hp, rfl⟩ | ⟨-, rfl⟩
      · exact .inl clear
      · exact .inr ⟨_, rfl⟩
    · cases h
      exact .inr ⟨_, rfl⟩
  · exact .inl (((exec_frame h).fault written).trans clear)

/-- Settles O17: where a step reports a fault, only `State.raise` stands between the advance and the tick. -/
theorem faultingStepHasNoOtherEffect : Obligations.FaultingStepHasNoOtherEffect := by
  intro s t h faulted
  obtain ⟨f, rfl⟩ : ∃ f, t = (s.enterExecute.raise f).tick := by
    obtain ⟨u, rfl, ⟨i, -, hu⟩ | ⟨e, -, rfl⟩⟩ := step_effect h
    · obtain ⟨f, rfl⟩ := (exec_fault_inversion hu rfl).resolve_left faulted
      exact ⟨f, rfl⟩
    · exact ⟨_, rfl⟩
  exact ⟨rfl, countDown_toNat s.dt, countDown_toNat s.st, rfl,
    (raise_frame s.enterExecute f).throughStep.mono (by simp) (by simp) (by simp)⟩

theorem unknownWord_of_error {w : Word} {e : DecodeError} (h : decode w = .error e) : unknownWord w = true :=
  (notExecutable_decode_iff w).mp fun i hi => by simp [h] at hi

theorem unknownWord_of_ok {w : Word} {i : Instr} (h : decode w = .ok i) :
    unknownWord w = true ↔ ∃ nnn, i = .sys nnn := by
  rw [← notExecutable_decode_iff, h]
  simp [NotExecutable]

/-- SYS reports the word it was decoded from. -/
theorem encode_of_decode_sys {w : Word} {nnn : Addr} (h : decode w = .ok (.sys nnn)) : encode (.sys nnn) = w :=
  (decode_readFrom h).2.trans (word_maskFFFF w)

/-- The fault an instruction reports, if any. -/
def reportedFault (s : State) : Instr → Option EngineFault
  | .sys nnn => some (.unknownOpcode (encode (.sys nnn)) s.fetchAddress)
  | .ret => if s.sp.val = 0 then some .stackUnderflow else none
  | .call _ => if s.sp.val = 16 then some .stackOverflow else none
  | _ => none

theorem exec_fault {i : Instr} {s t : State} (h : exec i s = .next t) (clear : s.fault = none) :
    t.fault = reportedFault s i := by
  cases i
  case sys nnn => cases h; rfl
  case ret =>
    rcases execRet_inversion s t h with ⟨hp, rfl⟩ | ⟨empty, rfl⟩
    · simp [reportedFault, clear, show s.sp.val ≠ 0 by omega]
    · simp [reportedFault, empty]
  case call nnn =>
    rcases execCall_inversion nnn s t h with ⟨hp, rfl⟩ | ⟨full, rfl⟩
    · simp [reportedFault, clear, show s.sp.val ≠ 16 by omega]
    · simp [reportedFault, full]
  all_goals exact ((exec_frame h).fault (by simp [writtenParts])).trans clear

/-- Settles O16: the three causes are told apart by the decoded instruction, and no other instruction reports
a fault. -/
theorem faultOutputIsExactlyTheThreeCauses : Obligations.FaultOutputIsExactlyTheThreeCauses := by
  intro s t h
  simp only [← decode_ret_iff, ← decode_call_iff]
  obtain ⟨u, rfl, ⟨i, hd, hu⟩ | ⟨e, hd, rfl⟩⟩ := step_effect h
  · rw [tick_fault, exec_fault hu rfl, hd]
    simp only [unknownWord_of_ok hd]
    cases i
    case sys nnn => simp [reportedFault, encode_of_decode_sys hd, enterExecute_fetchAddress]
    case call nnn => by_cases full : s.sp.val = 16 <;> simp [reportedFault, full]
    all_goals simp [reportedFault]
  · simp [unknownWord_of_error hd, enterExecute_fetchAddress]

/-! ### The step itself (R70, R85) -/

theorem countDown_eq_ofNat (b : Byte) : countDown b = BitVec.ofNat 8 (b.toNat - 1) := by
  rw [← countDown_toNat, BitVec.ofNat_toNat, BitVec.setWidth_eq]

theorem fetchedWord_eq_ofNat (s : State) :
    s.fetchedWord = BitVec.ofNat 16 (256 * (s.readByte s.pc).toNat + (s.readByte (s.pc + 1#12)).toNat) := by
  rw [← fetchedWord_toNat, BitVec.ofNat_toNat, BitVec.setWidth_eq]

theorem tick_eq (s : State) :
    s.tick = { s with dt := BitVec.ofNat 8 (s.dt.toNat - 1), st := BitVec.ofNat 8 (s.st.toNat - 1) } := by
  rw [← countDown_eq_ofNat, ← countDown_eq_ofNat]
  rfl

/-- Settles O10: `step_of_decode`, with the phases before and after the instruction written out. -/
theorem stepRunsTheDecodedInstruction : Obligations.StepRunsTheDecodedInstruction := by
  intro s i hd
  rw [step_of_decode s i (fetchedWord_eq_ofNat s ▸ hd)]
  obtain ⟨t, ht, -⟩ := exec_effect i s.enterExecute
  have ht' : exec i { s with dirty := false, fault := none, pc := s.pc + 2#12 } = .next t := ht
  simp only [ht, ht', finishStep, tick_eq]

/-- Settles O11: the report of R85 between the advance and the tick, with the fetch address two below the advanced
PC. -/
theorem stepReportsAnUnknownWord : Obligations.StepReportsAnUnknownWord := by
  intro s e hd
  rw [step_of_unknown s e hd, tick_eq, State.raiseUnknown, enterExecute_fetchAddress]
  rfl

/-- Settles O23: the jump sets PC back to where the step began, and the tick follows. -/
theorem jumpToSelfStaysPut : Obligations.JumpToSelfStaysPut := by
  intro s hd
  exact ⟨_, step_next_of_decode hd (exec_jp s.pc s.enterExecute), rfl, rfl, rfl, countDown_toNat s.dt,
    countDown_toNat s.st,
    ((setPc_frame s.enterExecute s.pc).throughStep.mono (by simp) (by simp) (by simp)).of_pc_eq rfl⟩

end Sys2Proof.Machine
end

section
/-! PROOFS. The canonical form of memory, through every step and every transaction (log 26): a step's memory is that of
a sequence of byte stores, and `writeBytes_wf` is about those. -/

namespace Sys2Proof.Machine

theorem exec_wf {i : Instr} {s t : State} (h : exec i s = .next t) (wf : s.wf) : t.wf := by
  have config : t.config = (s.writeBytes (byteStores s i)).config := by
    rw [(exec_frame h).config, writeBytes_config]
  exact wf_of_same _ (exec_mem h) config (writeBytes_wf s _ wf)

theorem enterExecute_wf {s : State} (wf : s.wf) : s.enterExecute.wf :=
  wf_of_same s (enterExecute_mem s) (enterExecute_config s) wf

theorem tick_wf {s : State} (wf : s.wf) : s.tick.wf := wf_of_same s (tick_mem s) (tick_config s) wf

theorem raiseUnknown_wf {s : State} (w : Word) (wf : s.wf) : (s.raiseUnknown w).wf :=
  wf_of_same s (raiseUnknown_mem s w) (raiseUnknown_config s w) wf

/-- Settles O8: the instruction's stores keep the form, and the phases around it leave memory alone. -/
theorem stepKeepsMemoryCanonical : Obligations.StepKeepsMemoryCanonical := by
  intro s t wf h
  obtain ⟨u, rfl, ⟨i, -, hu⟩ | ⟨e, -, rfl⟩⟩ := step_effect h
  · exact tick_wf (exec_wf hu (enterExecute_wf wf))
  · exact tick_wf (raiseUnknown_wf _ (enterExecute_wf wf))

theorem hostReset_wf (s : State) : s.hostReset.wf := wf_of_same _ rfl rfl (resetWith_wf s.config)

/-- Settles O7: reset memory lists nothing. -/
theorem resetMemoryIsCanonical : Obligations.ResetMemoryIsCanonical :=
  ⟨resetWith_wf Config.default, fun c s => ⟨resetWith_wf c, hostReset_wf s⟩⟩

theorem load_wf {s t : State} {bytes : List Byte} (h : s.load bytes = .ok t) (wf : s.wf) : t.wf := by
  unfold State.load at h
  split at h
  · cases h
  · cases h
    exact writeBytes_wf s _ wf

/-- One transaction on a machine that has been reset keeps the form. -/
theorem State.transact_wf {s : State} (x : Transaction) (wf : s.wf) : (s.transact x).1.wf := by
  cases x with
  | reset => exact hostReset_wf s
  | load bytes =>
    simp only [State.transact]
    split
    · next t loaded => exact load_wf loaded wf
    · exact wf
  | step =>
    simp only [State.transact]
    split
    · next t stepped => exact stepKeepsMemoryCanonical s t wf stepped
    · exact wf
    · exact wf
  | setKey index pressed => exact wf_of_same s (setKey_mem s index pressed) (setKey_config s index pressed) wf
  | display | registers | memory => exact wf

theorem System.transact_wf {y : System} (x : Transaction) (wf : y.wf) : (y.transact x).1.wf := by
  cases y with
  | running s => exact State.transact_wf x wf
  | unreset c =>
    cases x
    case reset => exact resetWith_wf c
    all_goals exact trivial

/-- Settles O9: each transaction keeps the form, so a sequence of them does. -/
theorem transactionsKeepMemoryCanonical : Obligations.TransactionsKeepMemoryCanonical := by
  intro y xs wf
  unfold System.transactAll
  induction xs generalizing y with
  | nil => exact wf
  | cons x xs ih => exact ih _ (System.transact_wf x wf)

end Sys2Proof.Machine
end

section
/-! PROOFS. What no step depends on: ST, the outputs of the step before, and the stack entries at SP and above. A state
that differs from another in ST and the stack array runs every instruction but CALL and RET in the same way; those two are
looked at by themselves. -/

namespace Sys2Proof.Machine

/-- `s` with another ST and another stack array. -/
def State.withHidden (s : State) (st : Byte) (stack : Vector Addr 16) : State := { s with st := st, stack := stack }

variable (s : State) (st : Byte) (stack : Vector Addr 16)

theorem withHidden_skipIf (b : Bool) : (s.withHidden st stack).skipIf b = (s.skipIf b).withHidden st stack := by
  cases b <;> rfl

theorem withHidden_writeBytes (cells : List (Addr × Byte)) :
    (s.withHidden st stack).writeBytes cells = (s.writeBytes cells).withHidden st stack := by
  unfold State.writeBytes
  induction cells generalizing s with
  | nil => rfl
  | cons cell cells ih => exact ih (s.writeByte cell.1 cell.2)

theorem withHidden_setRegs (loads : List (Reg × Byte)) :
    (s.withHidden st stack).setRegs loads = (s.setRegs loads).withHidden st stack := by
  unfold State.setRegs
  induction loads generalizing s with
  | nil => rfl
  | cons load loads ih => exact ih (s.setV load.1 load.2)

/-- An instruction that leaves the stack alone does not look at it, nor at ST; ST itself stays, or is loaded by
LD ST, Vx. -/
theorem exec_withHidden {s t : State} {i : Instr} (h : exec i s = .next t) (noStack : .stack ∉ writtenParts i) :
    ∃ st', exec i (s.withHidden st stack) = .next (t.withHidden st' stack) ∧ (st = s.st → st' = t.st) := by
  cases i
  case ret | call => exact absurd (by simp [writtenParts]) noStack
  case ldStVx x => cases h; exact ⟨s.getV x, rfl, fun _ => rfl⟩
  case ldVxK x =>
    rcases execLdVxK_inversion x s t h with ⟨k, key, rfl⟩ | ⟨noKey, rfl⟩
    · exact ⟨st, exec_ldVxK_of_some _ x key, id⟩
    · exact ⟨st, exec_ldVxK_of_none _ x noKey, id⟩
  case seImm | sneImm | seReg | sneReg | skp | sknp =>
    cases h
    exact ⟨st, congrArg Host.Outcome.next (withHidden_skipIf s st stack _), fun e => e.trans (skipIf_st s _).symm⟩
  case ldB x =>
    cases h
    exact ⟨st, congrArg Host.Outcome.next (withHidden_writeBytes s st stack _),
      fun e => e.trans (writeBytes_st s _).symm⟩
  case ldMemVx x =>
    cases h
    have stored := withHidden_writeBytes s st stack (blockStores s x)
    exact ⟨st, congrArg (fun u => Host.Outcome.next (State.setI u (afterBlock s.i x))) stored,
      fun e => e.trans (writeBytes_st s _).symm⟩
  case ldVxMem x =>
    cases h
    have loaded := withHidden_setRegs s st stack (blockLoads s x)
    exact ⟨st, congrArg (fun u => Host.Outcome.next (State.setI u (afterBlock s.i x))) loaded,
      fun e => e.trans (setRegs_st s _).symm⟩
  all_goals cases h; exact ⟨st, rfl, id⟩

/-! ### ST and the outputs -/

/-- CALL and RET do not look at ST either. -/
theorem exec_withSt {s t : State} {i : Instr} (h : exec i s = .next t) :
    ∃ st', exec i (s.withHidden st s.stack) = .next (t.withHidden st' t.stack) := by
  by_cases written : .stack ∈ writtenParts i
  · rcases stack_mem_writtenParts i written with rfl | ⟨nnn, rfl⟩
    · rcases execRet_inversion s t h with ⟨hp, rfl⟩ | ⟨empty, rfl⟩
      · exact ⟨st, exec_ret_of_pos (s.withHidden st s.stack) hp⟩
      · exact ⟨st, exec_ret_of_empty (s.withHidden st s.stack) empty⟩
    · rcases execCall_inversion nnn s t h with ⟨hp, rfl⟩ | ⟨full, rfl⟩
      · exact ⟨st, exec_call_of_lt (s.withHidden st s.stack) nnn hp⟩
      · exact ⟨st, exec_call_of_full (s.withHidden st s.stack) nnn full⟩
  · obtain ⟨st', h', -⟩ := exec_withHidden st s.stack h written
    exact ⟨st', by rw [h', ((exec_frame h).stack written).2]⟩

/-- Settles O21: the instruction runs in the same way under another ST, and the outputs are cleared before it. -/
theorem outputsAndSoundTimerAreInvisible : Obligations.OutputsAndSoundTimerAreInvisible := by
  intro s t st f d h
  obtain ⟨u, rfl, ⟨i, hd, hu⟩ | ⟨e, hd, rfl⟩⟩ := step_effect h
  · obtain ⟨st', hu'⟩ := exec_withSt st hu
    exact ⟨_, step_next_of_decode (s := { s with st := st, fault := f, dirty := d }) hd hu', rfl⟩
  · exact ⟨_, step_of_unknown { s with st := st, fault := f, dirty := d } e hd, rfl⟩

/-! ### Dead stack entries -/

/-- Two stack arrays agree below the depth `n`. -/
def AgreeBelow (n : Nat) (a b : Vector Addr 16) : Prop := ∀ k : Fin 16, k.val < n → a[k] = b[k]

/-- A push keeps the agreement and extends it by the entry pushed. -/
theorem AgreeBelow.set {n : Nat} {a b : Vector Addr 16} (h : AgreeBelow n a b) (hn : n < 16) (x : Addr) :
    AgreeBelow (n + 1) (a.set n x) (b.set n x) := by
  intro k hk
  by_cases last : n = k.val
  · simp [last]
  · simpa [Vector.getElem_set, last] using h k (by omega)

theorem exec_withStack {s t : State} {i : Instr} (agree : AgreeBelow s.sp.val stack s.stack) (h : exec i s = .next t) :
    ∃ stack', exec i (s.withHidden s.st stack) = .next (t.withHidden t.st stack') ∧
      AgreeBelow t.sp.val stack' t.stack := by
  by_cases written : .stack ∈ writtenParts i
  · rcases stack_mem_writtenParts i written with rfl | ⟨nnn, rfl⟩
    · rcases execRet_inversion s t h with ⟨hp, rfl⟩ | ⟨empty, rfl⟩
      · have newest : ((s.withHidden s.st stack).pop hp).1 = (s.pop hp).1 :=
          agree ⟨s.sp.val - 1, by omega⟩ (Nat.sub_lt hp Nat.one_pos)
        refine ⟨stack, ?_, fun k hk => agree k (lt_of_lt_of_le hk (Nat.sub_le _ _))⟩
        rw [exec_ret_of_pos (s.withHidden s.st stack) hp, newest]
        rfl
      · exact ⟨stack, exec_ret_of_empty (s.withHidden s.st stack) empty, agree⟩
    · rcases execCall_inversion nnn s t h with ⟨hp, rfl⟩ | ⟨full, rfl⟩
      · exact ⟨_, exec_call_of_lt (s.withHidden s.st stack) nnn hp, agree.set hp s.pc⟩
      · exact ⟨stack, exec_call_of_full (s.withHidden s.st stack) nnn full, agree⟩
  · obtain ⟨st', h', same⟩ := exec_withHidden s.st stack h written
    obtain ⟨sp, arr⟩ := (exec_frame h).stack written
    exact ⟨stack, by rw [h', same rfl], by rwa [sp, arr]⟩

/-- Settles O22: RET reads an entry on which the arrays agree, CALL writes one and extends the agreement, and no other
instruction looks at the stack. -/
theorem deadStackEntriesCarryNoMeaning : Obligations.DeadStackEntriesCarryNoMeaning := by
  intro s t other agree h
  obtain ⟨u, rfl, ⟨i, hd, hu⟩ | ⟨e, hd, rfl⟩⟩ := step_effect h
  · obtain ⟨stack', hu', agree'⟩ := exec_withStack other (s := s.enterExecute) agree hu
    exact ⟨_, step_next_of_decode (s := { s with stack := other }) hd hu', rfl, agree'⟩
  · exact ⟨_, step_of_unknown { s with stack := other } e hd, rfl, agree⟩

end Sys2Proof.Machine
end

section
/-! PROOFS. Control transfer (spec 40_cycle_and_control.md R77 to R85): CALL and RET on the stack, the four register
skips, and SYS. -/

namespace Sys2Proof.Machine

/-! ### CALL and RET (R77, R79) -/

/-- Settles O26: below depth 16 CALL is a push and a write of PC, at depth 16 the report. -/
theorem callPushesAndJumps : Obligations.CallPushesAndJumps := by
  intro nnn s
  refine ⟨decode_wordNNN_call nnn, ?below, ?full⟩
  case below =>
    intro h
    refine ⟨_, exec_call_of_lt s nnn h, rfl, rfl, Vector.getElem_set_self h, ?others,
      (push_frame s s.pc h).trans (setPc_frame _ nnn) |>.mono (by simp) (by simp) (by simp)⟩
    intro k hk
    exact Vector.getElem_set_ne h k.isLt (Ne.symm hk)
  case full =>
    intro h
    exact ⟨_, exec_call_of_full s nnn h, rfl, raise_frame s _⟩

/-- Settles O27: above depth 0 RET is a pop and a write of PC, at depth 0 the report. -/
theorem returnPopsTheNewestEntry : Obligations.ReturnPopsTheNewestEntry := by
  intro s ignored
  refine ⟨decode_wordXNN_ret ignored, ?some, ?empty⟩
  case some =>
    intro h
    exact ⟨_, exec_ret_of_pos s h, rfl, rfl, fun _ _ => rfl,
      (pop_frame s h).trans (setPc_frame _ _) |>.mono (by simp) (by simp) (by simp)⟩
  case empty =>
    intro h
    exact ⟨_, exec_ret_of_empty s h, rfl, raise_frame s _⟩

/-- Settles O28: the entry that RET pops is the one CALL pushed, and the entries below it were written by neither. -/
theorem returnComesBackAfterTheCall : Obligations.ReturnComesBackAfterTheCall := by
  intro nnn s u w t h call sp stack ret
  cases (exec_call_of_lt s nnn h).symm.trans call
  have depth : w.sp.val = s.sp.val + 1 := by rw [sp]; rfl
  have entries : w.stack = s.stack.set s.sp.val s.pc := stack
  cases (exec_ret_of_pos w (by omega)).symm.trans ret
  refine ⟨?pc, Fin.ext ?sp, ?below⟩
  case pc => simp [State.stackEntry, entries, depth]
  case sp => simp [depth]
  case below =>
    intro k hk
    simp [State.stackEntry, entries, Vector.getElem_set_ne h k.isLt (Nat.ne_of_gt hk)]

/-! ### The register skips (R80 to R83) -/

/-- PC after a skip, as a number. -/
theorem skipIf_pc_toNat (s : State) (b : Bool) :
    (s.skipIf b).pc.toNat = if b = true then (s.pc.toNat + 2) % 4096 else s.pc.toNat := by
  cases b
  · rfl
  · simp [BitVec.toNat_add]

theorem skipIf_eq_pc_toNat (s : State) (a b : Byte) :
    (s.skipIf (a == b)).pc.toNat = if a.toNat = b.toNat then (s.pc.toNat + 2) % 4096 else s.pc.toNat := by
  simp only [skipIf_pc_toNat, beq_iff_eq, BitVec.toNat_inj]

theorem skipIf_ne_pc_toNat (s : State) (a b : Byte) :
    (s.skipIf (a != b)).pc.toNat = if a.toNat ≠ b.toNat then (s.pc.toNat + 2) % 4096 else s.pc.toNat := by
  simp only [skipIf_pc_toNat, bne_iff_ne, ne_eq, BitVec.toNat_inj]

/-- Settles O29: each skip adds 2 to PC under its comparison and writes nothing else. -/
theorem skipComparesWithImmediate : Obligations.SkipComparesWithImmediate := by
  intro x nn s
  exact ⟨⟨decode_wordXNN_seImm x nn, _, exec_seImm s x nn, skipIf_eq_pc_toNat s _ _, skipIf_frame s _⟩,
    decode_wordXNN_sneImm x nn, _, exec_sneImm s x nn, skipIf_ne_pc_toNat s _ _, skipIf_frame s _⟩

/-- Settles O30: as O29, with a register for the immediate. -/
theorem skipComparesRegisters : Obligations.SkipComparesRegisters := by
  intro x y ignored s
  exact ⟨⟨decode_wordXYN_seReg x y ignored, _, exec_seReg s x y, skipIf_eq_pc_toNat s _ _, skipIf_frame s _⟩,
    decode_wordXYN_sneReg x y ignored, _, exec_sneReg s x y, skipIf_ne_pc_toNat s _ _, skipIf_frame s _⟩

/-! ### SYS (R85) -/

theorem encode_sys (nnn : Addr) : encode (.sys nnn) = BitVec.ofNat 16 nnn.toNat := by
  apply BitVec.eq_of_toNat_eq
  have bound := nnn.isLt
  have word : (encode (.sys nnn)).toNat = 0 * 2 ^ 12 + nnn.toNat := append_toNat 0x0#4 nnn
  rw [word, BitVec.toNat_ofNat]
  omega

theorem fetchAddress_eq_ofNat (s : State) : s.fetchAddress = BitVec.ofNat 12 (s.pc.toNat + 4094) := by
  apply BitVec.eq_of_toNat_eq
  simp [State.fetchAddress, BitVec.toNat_sub, Nat.add_comm]

/-- Settles O32: SYS is one report, of its own word and of the address two below the advanced PC. -/
theorem sysOnlyReportsItself : Obligations.SysOnlyReportsItself := by
  intro nnn s
  refine ⟨decode_wordNNN_sys nnn, _, exec_sys s nnn, ?report, raise_frame s _⟩
  case report => rw [raiseUnknown_fault, encode_sys, fetchAddress_eq_ofNat]

end Sys2Proof.Machine
end

section
/-! PROOFS. The rest of the register instructions (spec 41_alu.md R92 to R95, R98 to R101): each is one register write,
or a result and a flag. -/

namespace Sys2Proof.Machine

/-- Settles O35: LD Vx, Vy is one register write. -/
theorem moveCopiesVy : Obligations.MoveCopiesVy := by
  intro x y s
  exact ⟨decode_wordXYN_ldReg x y, _, exec_ldReg s x y, setV_getV_same s x _, setV_frame s x _⟩

/-- Settles O36: each of the three is one register write, of a byte whose bits are those of the operands combined. -/
theorem logicIsBitwiseAndLeavesTheFlag : Obligations.LogicIsBitwiseAndLeavesTheFlag := by
  intro x y s
  refine ⟨⟨decode_wordXYN_orReg x y, _, exec_orReg s x y, fun k _ => ?or, setV_frame s x _⟩,
    ⟨decode_wordXYN_andReg x y, _, exec_andReg s x y, fun k _ => ?and, setV_frame s x _⟩,
    decode_wordXYN_xorReg x y, _, exec_xorReg s x y, fun k _ => ?xor, setV_frame s x _⟩
  case or => rw [setV_getV_same, BitVec.getLsbD_or]
  case and => rw [setV_getV_same, BitVec.getLsbD_and]
  case xor => rw [setV_getV_same, BitVec.getLsbD_xor]

/-- Settles O39: as SUB, with the operands swapped. -/
theorem subnSwapsTheOperands : Obligations.SubnSwapsTheOperands := by
  intro x y s
  refine ⟨decode_wordXYN_subn x y, _, exec_subn s x y, ?flag, ?difference, setVThenFlag_frame s x _ _⟩
  case flag => exact (setVThenFlag_getV_flag s x _ _).trans (greaterFlag_eq _ _)
  case difference =>
    intro hx
    rw [setVThenFlag_getV_result s x _ _ hx]
    exact byte_sub_toNat (s.getV y) (s.getV x)

/-! ### The shifts (R98, R100) -/

theorem shiftedOutLow_toNat (a : Byte) : (shiftedOutLow a).toNat = a.toNat % 2 := by
  simp [shiftedOutLow, BitVec.toNat_and]

theorem shiftedOutHigh_toNat (a : Byte) : (shiftedOutHigh a).toNat = if a.toNat ≥ 128 then 128 else 0 := by
  have bit : shiftedOutHigh a = if a.getLsbD 7 then BitVec.twoPow 8 7 else 0#8 := BitVec.and_twoPow a 7
  have high : a.getLsbD 7 = decide (128 ≤ a.toNat) := BitVec.msb_eq_decide a
  rw [bit, high]
  by_cases h : 128 ≤ a.toNat <;> simp [h]

theorem byte_shiftRight_toNat (a : Byte) : (a >>> 1).toNat = a.toNat / 2 := by
  rw [BitVec.toNat_ushiftRight, Nat.shiftRight_eq_div_pow, Nat.pow_one]

theorem byte_shiftLeft_toNat (a : Byte) : (a <<< 1).toNat = a.toNat * 2 % 256 := by
  rw [BitVec.toNat_shiftLeft, Nat.shiftLeft_eq, Nat.pow_one]

/-- Settles O40: the bit shifted out is written last, so VF holds it whatever x is, and another destination keeps the
shifted byte. -/
theorem shiftsAreInPlace : Obligations.ShiftsAreInPlace := by
  intro x y s
  refine ⟨⟨decode_wordXYN_shr x y, _, exec_shr s x y, ?low, ?half, setVThenFlag_frame s x _ _⟩,
    decode_wordXYN_shl x y, _, exec_shl s x y, ?high, ?double, setVThenFlag_frame s x _ _⟩
  case low => exact (congrArg BitVec.toNat (setVThenFlag_getV_flag s x _ _)).trans (shiftedOutLow_toNat _)
  case half =>
    intro hx
    rw [setVThenFlag_getV_result s x _ _ hx, byte_shiftRight_toNat]
  case high => exact (congrArg BitVec.toNat (setVThenFlag_getV_flag s x _ _)).trans (shiftedOutHigh_toNat _)
  case double =>
    intro hx
    rw [setVThenFlag_getV_result s x _ _ hx, byte_shiftLeft_toNat]

/-- Settles O41: RND counts one draw and writes its value masked, whatever that value is. -/
theorem randomIsMaskedByNn : Obligations.RandomIsMaskedByNn := by
  intro x nn s
  refine ⟨decode_wordXNN_rnd x nn, _, exec_rnd s x nn, fun k _ => ?bits, rfl,
    (takeRnd_frame s).trans (setV_frame _ x _)⟩
  case bits => rw [setV_getV_same, State.nextRnd, BitVec.getLsbD_and]

end Sys2Proof.Machine
end

section
/-! PROOFS. The display instructions (spec 42_display.md R110 to R113): the cells a sprite covers are the cells that
`drawSprite_spec` flips. -/

namespace Sys2Proof.Machine

/-- Settles O42: CLS is one display write, of the clear display. -/
theorem clearZeroesEveryCell : Obligations.ClearZeroesEveryCell := by
  intro s ignored
  exact ⟨decode_wordXNN_cls ignored, _, exec_cls s, fun c _ => cell_clear c, rfl, setDisplay_frame s _⟩

/-! ### DRW (R111) -/

theorem dataAddr_eq_ofNat (i : Addr) (k : Nat) : dataAddr i k = BitVec.ofNat 12 (i.toNat + k) := by
  apply BitVec.eq_of_toNat_eq
  rw [dataAddr_toNat, BitVec.toNat_ofNat]

theorem pixelCell_wrap_eq_some (ux uy c : Nat) : pixelCell .wrap ux uy = some c ↔ c = ux % 64 + uy % 32 * 64 := by
  simp [pixelCell, eq_comm]

theorem pixelCell_clip_eq_some (ux uy c : Nat) :
    pixelCell .clip ux uy = some c ↔ ux ≤ 63 ∧ uy ≤ 31 ∧ c = ux + uy * 64 := by
  simp only [pixelCell]
  split <;> simp <;> omega

theorem mem_spriteCells_iff_covers (s : State) (vx vy n c : Nat) :
    c ∈ spriteCells s vx vy n ↔ spriteCovers s vx vy n c := by
  rw [mem_spriteCells, spriteCovers]
  cases s.config.drawEdge with
  | wrap => simp only [pixelCell_wrap_eq_some, dataAddr_eq_ofNat]
  | clip => simp only [pixelCell_clip_eq_some, dataAddr_eq_ofNat]

variable (s : State) (x y : Reg) (n : BitVec 4)

/-- The cells that DRW Vx, Vy, n flips. -/
def drawnCells : List Nat := spriteCells s (s.getV x).toNat (s.getV y).toNat n.toNat

theorem mem_drawnCells (c : Nat) :
    c ∈ drawnCells s x y n ↔ spriteCovers s (s.getV x).toNat (s.getV y).toNat n.toNat c :=
  mem_spriteCells_iff_covers s _ _ _ c

theorem cell_drawnCanvas (c : Nat) :
    Display.cell (drawnCanvas s x y n).fb c = (s.cell c ^^ decide (c ∈ drawnCells s x y n)) :=
  (drawSprite_spec s _ _ _ (by omega)).1 c

theorem collision_drawnCanvas : (drawnCanvas s x y n).collision = true ↔ ∃ c ∈ drawnCells s x y n, s.cell c = true :=
  (drawSprite_spec s _ _ _ (by omega)).2

/-- Settles O43: DRW writes the canvas, whose cells and collision `drawSprite_spec` gives, and then VF. -/
theorem drawInvertsTheCoveredCells : Obligations.DrawInvertsTheCoveredCells := by
  intro x y n s
  refine ⟨decode_wordXYN_drw x y n, _, exec_drw s x y n, ?covered, ?uncovered, ?collision, ?noCollision, rfl,
    (setDisplay_frame s _).trans (setV_frame _ vF _)⟩
  case covered =>
    intro c covers
    rw [setV_cell, setDisplay_cell, cell_drawnCanvas, decide_eq_true ((mem_drawnCells s x y n c).mpr covers),
      Bool.xor_true]
  case uncovered =>
    intro c uncovered
    rw [setV_cell, setDisplay_cell, cell_drawnCanvas, decide_eq_false (mt (mem_drawnCells s x y n c).mp uncovered),
      Bool.xor_false]
  case collision =>
    rintro ⟨c, covers, set⟩
    have hit := (collision_drawnCanvas s x y n).mpr ⟨c, (mem_drawnCells s x y n c).mpr covers, set⟩
    rw [hit]
    exact setV_getV_same _ vF _
  case noCollision =>
    intro clear
    have miss : (drawnCanvas s x y n).collision = false := by
      rw [Bool.eq_false_iff, ne_eq, collision_drawnCanvas]
      rintro ⟨c, mem, set⟩
      simp [clear c ((mem_drawnCells s x y n c).mp mem)] at set
    rw [miss]
    exact setV_getV_same _ vF _

/-- DRW writes neither memory nor `I` nor the parameters, so with the same coordinates the sprite covers the same
cells. -/
theorem drawnCells_after_draw {s t : State} {x y : Reg} {n : BitVec 4} (h : exec (.drw x y n) s = .next t)
    (hx : t.getV x = s.getV x) (hy : t.getV y = s.getV y) : drawnCells t x y n = drawnCells s x y n := by
  rw [drawnCells, hx, hy]
  cases h
  rfl

theorem flagOf_eq_one (b : Bool) : flagOf b = 1#8 ↔ b = true := by cases b <;> decide

/-- Settles O44: both draws flip the same cells, so each cell is flipped twice or never; the second draw meets a set
cell where the first met a clear one. -/
theorem drawingTwiceRestoresTheDisplay : Obligations.DrawingTwiceRestoresTheDisplay := by
  intro x y n s t u first hx hy second
  have same : drawnCells t x y n = drawnCells s x y n := drawnCells_after_draw first hx hy
  have cell (c : Nat) : t.cell c = (s.cell c ^^ decide (c ∈ drawnCells s x y n)) := by
    cases first
    exact cell_drawnCanvas s x y n c
  cases (exec_drw t x y n).symm.trans second
  constructor
  · refine display_ext _ _ fun c _ => ?_
    calc Display.cell (drawnCanvas t x y n).fb c
        = ((s.cell c ^^ decide (c ∈ drawnCells s x y n)) ^^ decide (c ∈ drawnCells s x y n)) := by
          rw [cell_drawnCanvas, same, cell]
      _ = s.cell c := by rw [Bool.xor_assoc, Bool.xor_self, Bool.xor_false]
  · have collides : (drawnCanvas t x y n).collision = true ↔ ∃ c ∈ drawnCells s x y n, s.cell c = false := by
      rw [collision_drawnCanvas, same]
      refine exists_congr fun c => and_congr_right fun mem => ?_
      rw [cell, decide_eq_true mem, Bool.xor_true, Bool.not_eq_true']
    rw [show (15 : Reg) = vF from rfl, setV_getV_same, flagOf_eq_one, collides]
    exact exists_congr fun c => and_congr_left fun _ => mem_drawnCells s x y n c

end Sys2Proof.Machine
end

section
/-! PROOFS. Keys and the timer get (spec 43_keys_timers.md R120 to R123). -/

namespace Sys2Proof.Machine

/-- Settles O45: both skips test the key of the register's value modulo 16, in opposite senses. -/
theorem skipTestsTheKeyLevel : Obligations.SkipTestsTheKeyLevel := by
  intro x k s hk
  have key : keyIndexOf (s.getV x) = k := Fin.ext hk.symm
  refine ⟨⟨decode_wordXNN_skp x, _, exec_skp s x, ?down, skipIf_frame s _⟩,
    decode_wordXNN_sknp x, _, exec_sknp s x, ?up, skipIf_frame s _⟩
  case down => rw [skipIf_pc_toNat, key]
  case up => simp only [skipIf_pc_toNat, key, Bool.not_eq_true']

/-- Settles O46: the scan answers the lowest key that is down, and with none down PC goes back to the fetch address. -/
theorem waitForKeyPolls : Obligations.WaitForKeyPolls := by
  intro x s
  refine ⟨decode_wordXNN_ldVxK x, ?pressed, ?none⟩
  case pressed =>
    intro k down lowest
    have scan : s.lowestKey = some k := (lowestKey_some s k).mpr ⟨down, lowest⟩
    refine ⟨_, exec_ldVxK_of_some s x scan, ?_, setV_frame s x _⟩
    rw [setV_getV_same, BitVec.toNat_ofNat]
    omega
  case none =>
    intro up
    refine ⟨_, exec_ldVxK_of_none s x ((lowestKey_none s).mpr up), ?_, setPc_frame s _⟩
    rw [setPc_pc, fetchAddress_eq_ofNat, BitVec.toNat_ofNat]

/-- Settles O47: LD Vx, DT is one register write, before the tick. -/
theorem readTimerCopiesDT : Obligations.ReadTimerCopiesDT := by
  intro x s
  exact ⟨decode_wordXNN_ldVxDt x, _, exec_ldVxDt s x, setV_getV_same s x _, setV_frame s x _⟩

end Sys2Proof.Machine
end

section
/-! PROOFS. The index register and the transfers between registers and memory (spec 44_index_memory.md R131 to R135):
the addresses of one transfer are distinct, so each byte stored is read back. -/

namespace Sys2Proof.Machine

/-! ### The index register -/

theorem indexCarryFlag_eq (i : Addr) (b : Byte) :
    indexCarryFlag i b = if i.toNat + b.toNat > 0xFFF then 1#8 else 0#8 :=
  flagOf_decide _

/-- Settles O51: ADD I, Vx writes the sum and then the carry of the old values. -/
theorem addIndexReportsCarry : Obligations.AddIndexReportsCarry := by
  intro x s
  exact ⟨decode_wordXNN_addI x, _, exec_addI s x, dataAddr_toNat s.i _,
    (setV_getV_same _ vF _).trans (indexCarryFlag_eq _ _), (setI_frame s _).trans (setV_frame _ vF _)⟩

/-- Settles O52: five times a byte fits in 12 bits. -/
theorem fontAddressIsFiveTimesVx : Obligations.FontAddressIsFiveTimesVx := by
  intro x s
  refine ⟨decode_wordXNN_ldF x, _, exec_ldF s x, ?address, setI_frame s _⟩
  case address =>
    rw [setI_i, fontAddr, BitVec.toNat_ofNat]
    omega

/-! ### LD B, Vx (R133) -/

/-- Each of the three digits is read back where it was stored. -/
theorem writeBytes_digitStores_readByte (s : State) (b : Byte) {k : Nat} {digit : Byte}
    (h : (dataAddr s.i k, digit) ∈ digitStores s.i b) :
    (s.writeBytes (digitStores s.i b)).readByte (BitVec.ofNat 12 (s.i.toNat + k)) = digit := by
  rw [← dataAddr_eq_ofNat]
  exact writeBytes_readByte_mem s _ _ _ (digitStores_nodup s.i b) h

/-- Settles O53: the digits are below 256, and the three addresses are distinct. -/
theorem decimalDigitsAreStored : Obligations.DecimalDigitsAreStored := by
  intro x s
  have digit (k : Nat) (hk : k < 256) : (BitVec.ofNat 8 k).toNat = k := BitVec.toNat_ofNat k 8 ▸ Nat.mod_eq_of_lt hk
  refine ⟨decode_wordXNN_ldB x, _, exec_ldB s x, ?hundreds, ?tens, ?units, writeBytes_frame s _⟩
  case hundreds =>
    have stored := writeBytes_digitStores_readByte s (s.getV x) (k := 0) (.head _)
    rw [Nat.add_zero] at stored
    rw [stored, hundreds, digit _ (by omega)]
  case tens =>
    have stored := writeBytes_digitStores_readByte s (s.getV x) (k := 1) (.tail _ (.head _))
    rw [stored, tens, digit _ (by omega)]
  case units =>
    have stored := writeBytes_digitStores_readByte s (s.getV x) (k := 2) (.tail _ (.tail _ (.head _)))
    rw [stored, units, digit _ (by omega)]

/-! ### The block transfers (R134, R135) -/

variable (s : State) (x : Reg)

theorem afterBlock_toNat (i : Addr) : (afterBlock i x).toNat = (i.toNat + x.val + 1) % 4096 := dataAddr_toNat i _

/-- Each register up to x is read back where it was stored. -/
theorem writeBytes_blockStores_readByte {k : Reg} (h : k ≤ x) :
    (s.writeBytes (blockStores s x)).readByte (dataAddr s.i k.val) = s.getV k :=
  writeBytes_readByte_mem s _ _ _ (blockStores_nodup s x) (List.mem_map.mpr ⟨k, (mem_regsUpTo x k).mpr h, rfl⟩)

/-- Each register up to x holds the byte it was loaded from. -/
theorem setRegs_blockLoads_getV {k : Reg} (h : k ≤ x) :
    (s.setRegs (blockLoads s x)).getV k = s.readByte (dataAddr s.i k.val) :=
  setRegs_getV_mem s _ _ _ (blockLoads_fst s x ▸ regsUpTo_nodup x)
    (List.mem_map.mpr ⟨k, (mem_regsUpTo x k).mpr h, rfl⟩)

theorem blockStores_fst_subset : (blockStores s x).map Prod.fst ⊆ (List.range (x.val + 1)).map (dataAddr s.i) := by
  intro a h
  rw [blockStores_fst] at h
  obtain ⟨k, hk, rfl⟩ := List.mem_map.mp h
  exact List.mem_map.mpr ⟨k.val, List.mem_range.mpr (Nat.lt_succ_of_le ((mem_regsUpTo x k).mp hk)), rfl⟩

/-- Settles O54: the stores of V0 to Vx, then one write of `I`. -/
theorem blockStoreWritesV0ToVx : Obligations.BlockStoreWritesV0ToVx := by
  intro x s
  refine ⟨decode_wordXNN_ldMemVx x, _, exec_ldMemVx s x, ?stored, afterBlock_toNat x s.i, ?frame⟩
  case stored =>
    intro k hk
    rw [setI_readByte, ← dataAddr_eq_ofNat]
    exact writeBytes_blockStores_readByte s x hk
  case frame =>
    exact ((writeBytes_frame s _).trans (setI_frame _ _)).mono (by simp) (by simp)
      (by simpa using blockStores_fst_subset s x)

/-- Settles O55: the loads of V0 to Vx, then one write of `I`. -/
theorem blockLoadReadsV0ToVx : Obligations.BlockLoadReadsV0ToVx := by
  intro x s
  refine ⟨decode_wordXNN_ldVxMem x, _, exec_ldVxMem s x, ?loaded, afterBlock_toNat x s.i, ?frame⟩
  case loaded =>
    intro k hk
    rw [setI_getV, ← dataAddr_eq_ofNat]
    exact setRegs_blockLoads_getV s x hk
  case frame =>
    refine ((setRegs_frame s _).trans (setI_frame _ _)).mono ?_ (by simp) (by simp)
    rw [blockLoads_fst, List.append_nil]
    exact List.Subset.refl _

/-- Settles O24: the two bytes at PC are the first two the block store writes. -/
theorem storedInstructionIsFetchedNext : Obligations.StoredInstructionIsFetchedNext := by
  intro s x hx hi
  refine ⟨_, exec_ldMemVx s x, ?pc, ?word⟩
  case pc => rw [setI_pc, writeBytes_pc]
  case word =>
    have high : (s.writeBytes (blockStores s x)).readByte s.pc = s.getV 0 := by
      have stored := writeBytes_blockStores_readByte s x (k := 0) (Fin.zero_le x)
      rwa [show dataAddr s.i (0 : Reg).val = s.pc from (dataAddr_zero s.i).trans hi] at stored
    have low : (s.writeBytes (blockStores s x)).readByte (s.pc + 1#12) = s.getV 1 := by
      have stored := writeBytes_blockStores_readByte s x (k := 1) hx
      rwa [show dataAddr s.i (1 : Reg).val = s.pc + 1#12 from congrArg (· + 1#12) hi] at stored
    rw [fetchedWord_toNat, setI_pc, writeBytes_pc, setI_readByte, setI_readByte, high, low]

end Sys2Proof.Machine
end

section
/-! PROOFS. The host's transactions (spec 60_exceptions.md R154 to R156; 70_reset_and_hazards.md R170, R171). -/

namespace Sys2Proof.Machine

/-! ### load (R171) -/

theorem load_of_length_le (s : State) {bytes : List Byte} (h : bytes.length ≤ maxProgramLength) :
    s.load bytes = .ok (s.writeBytes (imageStores bytes)) :=
  if_neg (Nat.not_lt.mpr h)

theorem transact_load_of_ok {s t : State} {bytes : List Byte} (h : s.load bytes = .ok t) :
    s.transact (.load bytes) = (t, .ok) := by
  simp only [State.transact, h]

theorem imageStores_fst (bytes : List Byte) :
    (imageStores bytes).map Prod.fst = (List.range bytes.length).map (dataAddr 0x200#12) := by
  rw [imageStores, List.map_map, List.range_eq_range', ← List.zipIdx_map_snd, List.map_map]
  rfl

theorem imageStores_nodup {bytes : List Byte} (h : bytes.length ≤ maxProgramLength) :
    ((imageStores bytes).map Prod.fst).Nodup := by
  rw [imageStores_fst]
  refine List.nodup_range.map_on ?_
  intro j hj k hk e
  rw [List.mem_range] at hj hk
  have bound : maxProgramLength < 4096 := by decide
  exact (dataAddr_inj _ j k (by omega) (by omega)).mp e

theorem mem_imageStores (bytes : List Byte) (k : Nat) (h : k < bytes.length) :
    (dataAddr 0x200#12 k, bytes[k]) ∈ imageStores bytes :=
  List.mem_map.mpr ⟨(bytes[k], k), List.mk_mem_zipIdx_iff_getElem?.mpr (List.getElem?_eq_getElem h), rfl⟩

/-- Byte `k` of an image that is not too large is read back at `0x200 + k`. -/
theorem writeBytes_imageStores_readByte (s : State) {bytes : List Byte} (h : bytes.length ≤ maxProgramLength) (k : Nat)
    (hk : k < bytes.length) :
    (s.writeBytes (imageStores bytes)).readByte (BitVec.ofNat 12 (0x200 + k)) = bytes[k] := by
  have stored := writeBytes_readByte_mem s _ _ _ (imageStores_nodup h) (mem_imageStores bytes k hk)
  rwa [dataAddr_eq_ofNat] at stored

/-- Settles O56: an image that is not too large is a sequence of byte stores at distinct addresses. -/
theorem loadPlacesTheImage : Obligations.LoadPlacesTheImage := by
  intro s bytes h
  refine ⟨_, transact_load_of_ok (load_of_length_le s h), writeBytes_imageStores_readByte s h, ?frame⟩
  case frame =>
    have addresses : (imageStores bytes).map Prod.fst =
        (List.range bytes.length).map (fun k => BitVec.ofNat 12 (0x200 + k)) := by
      rw [imageStores_fst]
      exact List.map_congr_left fun k _ => dataAddr_eq_ofNat _ k
    rw [← addresses]
    exact writeBytes_frame s _

/-! ### A reset erases the program before it (R170) -/

/-- A load changes neither the parameters nor the count of draws, which is all that the host's reset keeps. -/
theorem hostReset_transact_load (s : State) (bytes : List Byte) :
    (s.transact (.load bytes)).1.hostReset = s.hostReset := by
  rcases Nat.lt_or_ge maxProgramLength bytes.length with h | h
  · rw [transact_load_of_error (load_of_length_gt s h)]
  · rw [transact_load_of_ok (load_of_length_le s h)]
    simp only [State.hostReset, writeBytes_config, writeBytes_rndDraws]

theorem transactAll_load_reset (y : System) (first : List Byte) (xs : List Transaction) :
    y.transactAll (.load first :: .reset :: xs) = y.transactAll (.reset :: xs) := by
  cases y with
  | unreset c => rfl
  | running s => exact congrArg (fun t => (System.running t).transactAll xs) (hostReset_transact_load s first)

/-- After a reset the system runs, with the reset values up to the count of draws. -/
theorem transact_reset (y : System) :
    ∃ (c : Config) (draws : Nat), (y.transact .reset).1 = .running { State.resetWith c with rndDraws := draws } := by
  cases y with
  | unreset c => exact ⟨c, 0, rfl⟩
  | running s => exact ⟨s.config, s.rndDraws, rfl⟩

theorem transactAll_reset_load (y : System) {rom : List Byte} (h : rom.length ≤ maxProgramLength) :
    ∃ (c : Config) (draws : Nat), y.transactAll [.reset, .load rom] =
      .running (State.writeBytes { State.resetWith c with rndDraws := draws } (imageStores rom)) := by
  obtain ⟨c, draws, reset⟩ := transact_reset y
  refine ⟨c, draws, ?_⟩
  show ((y.transact .reset).1.transact (.load rom)).1 = _
  rw [reset, System.transact, transact_load_of_ok (load_of_length_le _ h)]

theorem imageStores_fst_ne {rom : List Byte} (h : rom.length ≤ maxProgramLength) {a : Addr}
    (outside : ∀ k, k < rom.length → a.toNat ≠ 0x200 + k) : a ∉ (imageStores rom).map Prod.fst := by
  rw [imageStores_fst, List.mem_map]
  rintro ⟨k, hk, rfl⟩
  have hk : k < rom.length := List.mem_range.mp hk
  have bound : maxProgramLength = 0xE00 := rfl
  refine outside k hk ?_
  rw [dataAddr_toNat]
  simp
  omega

/-- Settles O58: the reset keeps nothing that a load changes, and after it the second image stands on reset memory,
which reads 0 from 0x050 up. -/
theorem loadResetLoadIsResetLoad : Obligations.LoadResetLoadIsResetLoad := by
  intro y first rom
  have erased := transactAll_load_reset y first [.load rom]
  refine ⟨erased, fun h => ?_⟩
  obtain ⟨c, draws, run⟩ := transactAll_reset_load y h
  refine ⟨_, erased.trans run, writeBytes_imageStores_readByte _ h, fun a ha outside => ?_⟩
  rw [writeBytes_readByte_other _ _ _ (imageStores_fst_ne h outside)]
  exact (resetWith_readByte c a).trans (unlistedByte_of_ge c a.toNat ha)

/-! ### set_key and the read accessors (R154 to R156) -/

/-- Settles O59: an index of the latch is written as `setKey_keyDown` says, and any other index writes nothing. -/
theorem setKeyWritesOneFlag : Obligations.SetKeyWritesOneFlag := by
  intro s index pressed
  rcases Nat.lt_or_ge index 16 with h | h
  · refine ⟨setKey_keyDown s index pressed h, fun h' => absurd h (Nat.not_lt.mpr h'), ?_⟩
    simp only [State.setKey, h, dite_true]
  · rw [setKey_out_of_range s index pressed h]
    refine ⟨fun k => ?_, fun _ => rfl, rfl⟩
    rw [if_neg (by omega)]

theorem display_getElem (s : State) (c : Fin 2048) : s.display[c] = s.cell c.val := Vector.getElem_ofFn c.isLt

theorem memory_getElem (s : State) (a : Fin 4096) : s.memory[a] = s.readByte (BitVec.ofNat 12 a.val) := by
  have same : BitVec.ofFin (w := 12) a = BitVec.ofNat 12 a.val :=
    BitVec.eq_of_toNat_eq (Nat.mod_eq_of_lt a.isLt).symm
  rw [← same]
  exact Vector.getElem_ofFn a.isLt

/-- Settles O60: each accessor answers a vector of reads and hands back the state. -/
theorem accessorsOnlyRead : Obligations.AccessorsOnlyRead := by
  intro s
  exact ⟨⟨s.display, rfl, display_getElem s⟩, ⟨s.memory, rfl, memory_getElem s⟩, rfl⟩

end Sys2Proof.Machine
end
